-- ==== Sys2Proof/Word.lean ====
section
/-! DEFINITION. The one word type of the block: an 8-bit byte (R8, R17, R20, R33 of spec/). -/

namespace Sys2Proof

/-- An 8-bit value: a register, the pc, a memory cell, an instruction byte.
Bit 7 is the most significant (R8, D16). Every value is unsigned. -/
abbrev Byte := BitVec 8

/-- A register number, 0 to 7 (R16). -/
abbrev RegNo := Fin 8

/-- A flag number, 0 to 7 (R22). -/
abbrev FlagNo := Fin 8

end Sys2Proof
end

