-- ==== Sys2Proof/Config.lean ====
section
/-! DEFINITION. What an implementation of the block fixes: the parameters of R6 as plain data, and the fixed indices
of R6 (NREGS = 8 and MEM_SIZE = 128 stand as numerals where they are used). The spec leaves no value open that a rule observes, so there is no free value. -/

namespace Sys2Proof

/-- The parameter ARITH_OVERFLOW (R6, R72): what becomes of a result outside 0 to 255. -/
inductive ArithOverflow where
  /-- Reduced modulo 256; the default. -/
  | wrap
  /-- ArithOverflow is raised. -/
  | fault
  deriving DecidableEq, Repr

/-- The thirteen opcodes the decoder recognises, in the order of spec/opcode_table.json (R54). -/
inductive Opcode where
  | hlt | ldi | add | mul | prn | push | pop | call | ret | cmp | jmp | jeq | jne
  deriving DecidableEq, Repr

/-- Every opcode once, in the table's order (R54). -/
def Opcode.all : List Opcode :=
  [.hlt, .ldi, .add, .mul, .prn, .push, .pop, .call, .ret, .cmp, .jmp, .jeq, .jne]

/-- The implementation parameters of R6: the overflow policy, the entry address, and the nine opcode values the source
does not give (D1, D6, D7). The defaults are `Params.default` in Decode.lean. -/
structure Params where
  /-- ARITH_OVERFLOW. -/
  arithOverflow : ArithOverflow
  /-- ENTRY_PC, 0 to 255. -/
  entryPc : Byte
  /-- OPC_MUL. -/
  opcMul : Byte
  /-- OPC_PUSH. -/
  opcPush : Byte
  /-- OPC_POP. -/
  opcPop : Byte
  /-- OPC_CALL. -/
  opcCall : Byte
  /-- OPC_RET. -/
  opcRet : Byte
  /-- OPC_CMP. -/
  opcCmp : Byte
  /-- OPC_JMP. -/
  opcJmp : Byte
  /-- OPC_JEQ. -/
  opcJeq : Byte
  /-- OPC_JNE. -/
  opcJne : Byte
  deriving DecidableEq, Repr

/-- SP_INDEX: register 7 is the stack pointer (R6, R18). -/
abbrev spIndex : RegNo := 7

/-- SP_INIT: just past the last cell (R6, R32, C1). -/
abbrev spInit : Byte := 128

/-- FLAG_L: set when CMP finds less (R6, R22). -/
abbrev flagL : FlagNo := 5

/-- FLAG_G: set when CMP finds greater (R6, R22). -/
abbrev flagG : FlagNo := 6

/-- FLAG_E: set when CMP finds equal (R6, R22). -/
abbrev flagE : FlagNo := 7

end Sys2Proof
end

