-- ==== Sys2Proof/Syntax.lean ====
section
/-! DEFINITION. The instructions, one constructor per row of spec/opcode_table.json (R54). -/

namespace Sys2Proof

/-- An instruction with its operand bytes as fetched. `a` and `b` name a register by the WHOLE byte (R52): a value of
8 or more is legal at decode time (R58) and faults when the register is accessed. -/
inductive Instr where
  /-- HLT: stop (R78). -/
  | hlt
  /-- LDI rA, imm: load an immediate byte (R75). -/
  | ldi (a imm : Byte)
  /-- ADD rA, rB (R76). -/
  | add (a b : Byte)
  /-- MUL rA, rB (R77). -/
  | mul (a b : Byte)
  /-- PRN rA: emit a register (R79). -/
  | prn (a : Byte)
  /-- PUSH rA (R80). -/
  | push (a : Byte)
  /-- POP rA (R81). -/
  | pop (a : Byte)
  /-- CALL rA (R83). -/
  | call (a : Byte)
  /-- RET (R84). -/
  | ret
  /-- CMP rA, rB (R85). -/
  | cmp (a b : Byte)
  /-- JMP rA (R86). -/
  | jmp (a : Byte)
  /-- JEQ rA (R87). -/
  | jeq (a : Byte)
  /-- JNE rA (R88). -/
  | jne (a : Byte)
  deriving DecidableEq, Repr

end Sys2Proof
end

