-- ==== Sys2Proof/WellFormed.lean ====
section
/-! DEFINITION. Which instructions are well formed, and which parameter sets are legal. -/

namespace Sys2Proof

/-- The byte names one of the 8 registers (R52). -/
def namesRegister (k : Byte) : Bool := decide (k.toNat < 8)

/-- "All register indices ... used by a well-formed program lie within their respective bounds" (R108): every operand
byte that is a register index is below 8. LDI's immediate is never checked. An instruction that is not well formed
still decodes (R58) and still has its meaning. -/
def Instr.wf : Instr → Bool
  | .hlt => true
  | .ldi a _ => namesRegister a
  | .add a b => namesRegister a && namesRegister b
  | .mul a b => namesRegister a && namesRegister b
  | .prn a => namesRegister a
  | .push a => namesRegister a
  | .pop a => namesRegister a
  | .call a => namesRegister a
  | .ret => true
  | .cmp a b => namesRegister a && namesRegister b
  | .jmp a => namesRegister a
  | .jeq a => namesRegister a
  | .jne a => namesRegister a

end Sys2Proof
end

