-- ==== Sys2Proof/Decode.lean ====
section
/-! DEFINITION. The opcode map, the decoder (total on any bytes, refusing by name) and, after it, the encoder written from the
same table (R50 to R58). -/

namespace Sys2Proof

/-- The default parameter set of R6. The nine opcode values are general knowledge (GK2, log entry 4); WRAP and entry 0 are
the spec's defaults (D1, D6, log entry 5). -/
def Params.default : Params where
  arithOverflow := .wrap
  entryPc := 0x00
  opcMul := 0xA2
  opcPush := 0x45
  opcPop := 0x46
  opcCall := 0x50
  opcRet := 0x11
  opcCmp := 0xA7
  opcJmp := 0x54
  opcJeq := 0x55
  opcJne := 0x56

/-- The opcode byte of each instruction: four values the source states, nine parameters (R6, R54). -/
def Opcode.byte (p : Params) : Opcode → Byte
  | .hlt => 0x01
  | .ldi => 0x82
  | .add => 0xA0
  | .mul => p.opcMul
  | .prn => 0x47
  | .push => p.opcPush
  | .pop => p.opcPop
  | .call => p.opcCall
  | .ret => p.opcRet
  | .cmp => p.opcCmp
  | .jmp => p.opcJmp
  | .jeq => p.opcJeq
  | .jne => p.opcJne

/-- The operand count n of each opcode, by table and never from the opcode's bits (R51, R54, R56). -/
def Opcode.operandCount : Opcode → Nat
  | .hlt => 0
  | .ldi => 2
  | .add => 2
  | .mul => 2
  | .prn => 1
  | .push => 1
  | .pop => 1
  | .call => 1
  | .ret => 0
  | .cmp => 2
  | .jmp => 1
  | .jeq => 1
  | .jne => 1

/-- No byte occurs twice in the list. -/
def distinctBytes : List Byte → Bool
  | [] => true
  | x :: xs => !xs.contains x && distinctBytes xs

/-- R7: the thirteen opcode values are pairwise distinct and none is 0xFF. DESIGN CHOICE (log entry 13): nothing else is asked, so a
parameter may be 0x00, although R57 and R108 call that byte illegal; zero cells then execute. -/
def Params.valid (p : Params) : Bool :=
  let bytes := Opcode.all.map (Opcode.byte p)
  distinctBytes bytes && !bytes.contains 0xFF

/-- Decoding compares the whole byte with each of the thirteen values (R55). -/
def decodeOpcode (p : Params) (op : Byte) : Option Opcode :=
  Opcode.all.find? fun o => o.byte p == op

/-- The fetch window of R64: the opcode byte and the two candidate operand bytes, `none` for the marker NONE. -/
structure FetchWindow where
  op : Byte
  a : Option Byte
  b : Option Byte
  deriving DecidableEq, Repr

/-- Why no instruction can be read. -/
inductive DecodeError where
  /-- There is no opcode byte at all. -/
  | noOpcode
  /-- The byte matches none of the thirteen opcodes (R57, R90). -/
  | invalidOpcode (op : Byte)
  /-- The instruction needs operand A and it does not exist (R65). -/
  | missingA
  /-- The instruction needs operand B and it does not exist (R65). -/
  | missingB
  deriving DecidableEq, Repr

/-- The instruction an opcode makes of its operand bytes; an operand the opcode does not consume is dropped (R65). -/
def Opcode.build (o : Opcode) (a b : Byte) : Instr :=
  match o with
  | .hlt => .hlt
  | .ldi => .ldi a b
  | .add => .add a b
  | .mul => .mul a b
  | .prn => .prn a
  | .push => .push a
  | .pop => .pop a
  | .call => .call a
  | .ret => .ret
  | .cmp => .cmp a b
  | .jmp => .jmp a
  | .jeq => .jeq a
  | .jne => .jne a

/-- Stages 2 and 3 of the step (R63): decode the opcode, then ask for the operands it consumes, A before B (R93). -/
def decode (p : Params) (w : FetchWindow) : Except DecodeError Instr :=
  match decodeOpcode p w.op with
  | none => .error (.invalidOpcode w.op)
  | some o =>
    if 1 ≤ o.operandCount ∧ w.a = none then .error .missingA
    else if o.operandCount = 2 ∧ w.b = none then .error .missingB
    else .ok (o.build (w.a.getD 0) (w.b.getD 0))

/-- The opcode of an instruction. -/
def Instr.opcode : Instr → Opcode
  | .hlt => .hlt
  | .ldi _ _ => .ldi
  | .add _ _ => .add
  | .mul _ _ => .mul
  | .prn _ => .prn
  | .push _ => .push
  | .pop _ => .pop
  | .call _ => .call
  | .ret => .ret
  | .cmp _ _ => .cmp
  | .jmp _ => .jmp
  | .jeq _ => .jeq
  | .jne _ => .jne

/-- The length of an instruction in bytes: 1 + n (R51). -/
def Instr.length (i : Instr) : Nat := 1 + i.opcode.operandCount

/-- The decoder on a list of bytes at increasing addresses (R34): the instruction and the bytes after it. -/
def decodeBytes (p : Params) : List Byte → Except DecodeError (Instr × List Byte)
  | [] => .error .noOpcode
  | op :: rest =>
    match decode p ⟨op, rest[0]?, rest[1]?⟩ with
    | .error e => .error e
    | .ok i => .ok (i, rest.drop i.opcode.operandCount)

/-- The bytes of an instruction, by the formats F0, F1, F2r and F2i (R50, R54). -/
def encode (p : Params) : Instr → List Byte
  | .hlt => [Opcode.byte p .hlt]
  | .ldi a imm => [Opcode.byte p .ldi, a, imm]
  | .add a b => [Opcode.byte p .add, a, b]
  | .mul a b => [Opcode.byte p .mul, a, b]
  | .prn a => [Opcode.byte p .prn, a]
  | .push a => [Opcode.byte p .push, a]
  | .pop a => [Opcode.byte p .pop, a]
  | .call a => [Opcode.byte p .call, a]
  | .ret => [Opcode.byte p .ret]
  | .cmp a b => [Opcode.byte p .cmp, a, b]
  | .jmp a => [Opcode.byte p .jmp, a]
  | .jeq a => [Opcode.byte p .jeq, a]
  | .jne a => [Opcode.byte p .jne, a]

/-- The three bytes at increasing addresses of an instruction whose bits are `w`, bit 0 the least significant bit of the first
byte; every bit from `nbits` up is 0. -/
def tableBytes (nbits w : Nat) : List Byte :=
  let v := w % 2 ^ nbits
  [BitVec.ofNat 8 v, BitVec.ofNat 8 (v / 2 ^ 8), BitVec.ofNat 8 (v / 2 ^ 16)]

/-- The instruction the decoder reads, under the default parameters, from a word numbered as spec/opcode_table.json numbers
its bits. -/
def decodeTableWord (nbits w : Nat) : Option Instr :=
  match decodeBytes Params.default (tableBytes nbits w) with
  | .ok (i, _) => some i
  | .error _ => none

end Sys2Proof
end

