-- ==== Sys2Proof/Machine/State.lean ====
section
/-! DEFINITION. The state of the block (10_state.md), the reasons a step can stop, and the reset state (R32, R105). -/

namespace Sys2Proof.Machine

/-- Which bound an access broke (R89). -/
inductive BoundsKind where
  | fetch | operand | register | memory
  deriving DecidableEq, Repr

/-- The operation kinds the ALU interface can be asked for (R74): ADD, SUB, or any other by its name. -/
inductive AluKind where
  | add | sub
  /-- A kind the ALU does not define, such as "MUL". -/
  | other (name : String)
  deriving DecidableEq, Repr

/-- The spec's fault reasons with their recorded values (R89). They are DATA of the run status, not outcomes of a step: a step
that raises one answers the next state whose status is FAULTED (R92, log entry 1). -/
inductive FaultReason where
  /-- InvalidOpcode(op): raised by the decoder (R90). -/
  | invalidOpcode (op : Byte)
  /-- OutOfBounds(kind, value): raised by the fetch, the operand check, RegIndex, MemRead and MemWrite (R10, R91). -/
  | outOfBounds (kind : BoundsKind) (value : Nat)
  /-- ArithOverflow(v) with the unreduced result; only under ARITH_OVERFLOW = FAULT (R72). -/
  | arithOverflow (v : Int)
  /-- AluUnsupported(kind): raised at the ALU interface only; no instruction reaches it (R74). -/
  | aluUnsupported (kind : AluKind)
  deriving DecidableEq, Repr

/-- The run status (R26). `faulted` carries the reason and the pc of the faulting instruction. -/
inductive RunStatus where
  | running
  | halted
  | faulted (reason : FaultReason) (pc : Byte)
  deriving DecidableEq, Repr

/-- Why a step has no next state. Both are stuck states of the spec (R62, I14), so both are safe. -/
inductive Fault where
  /-- Raised by `step` alone: the block is HALTED and takes no step (R62). Safe. -/
  | halted
  /-- Raised by `step` alone: the block is FAULTED, for this reason at this pc, and takes no step (R62, R92). Safe. -/
  | faulted (reason : FaultReason) (pc : Byte)
  deriving DecidableEq, Repr

/-- Why the model gives a step no meaning. -/
inductive Refusal where
  /-- Raised by an arm of `exec` whose instruction has no meaning yet; no arm is one. Safe. -/
  | notModelled (mnemonic : String)
  /-- Raised by `step` and `State.boot`: the parameter set breaks R7, and R7 says the model must refuse it. Safe. -/
  | badParameters
  deriving DecidableEq, Repr

/-- Memory as its cells that are not 0, addresses strictly rising. An unlisted cell reads as 0, its reset value (R32). -/
abbrev Memory := List Host.Cell

/-- The state of the block. -/
structure State where
  /-- x[0] to x[7]; x[7] is SP (R16, R18). -/
  regs : Vector Byte 8
  /-- The program counter (R20). -/
  pc : Byte
  /-- FL[0] to FL[7] (R22). -/
  flags : Vector Bool 8
  /-- M[0] to M[127] (R28). -/
  mem : Memory
  /-- The run status (R26). -/
  status : RunStatus
  /-- The values PRN has emitted, oldest first (R31). -/
  out : List Byte
  /-- The implementation parameters (R6), fixed for the machine: no step writes them (log entry 2). -/
  params : Params
  deriving DecidableEq, Repr

/-- The reset state of a block with the given parameters (R32, R105). -/
def State.resetWith (p : Params) : State where
  regs := #v[0, 0, 0, 0, 0, 0, 0, spInit]
  pc := p.entryPc
  flags := Vector.replicate 8 false
  mem := []
  status := .running
  out := []
  params := p

/-- The state right after reset, with the default parameters of R6 and no image loaded. -/
def State.reset : State := State.resetWith Params.default

end Sys2Proof.Machine
end

