-- ==== Sys2Proof/Machine/Alu.lean ====
section
/-! DEFINITION. Arithmetic results (R72) and the ALU function (R74). -/

namespace Sys2Proof.Machine

/-- `arith(v)`: the 8-bit register value of an unbounded result, by the ARITH_OVERFLOW policy (R72). -/
def arith (policy : ArithOverflow) (v : Int) : Except FaultReason Byte :=
  match policy with
  | .wrap => .ok (BitVec.ofInt 8 v)
  | .fault => if 0 ≤ v ∧ v ≤ 255 then .ok (BitVec.ofInt 8 v) else .error (.arithOverflow v)

/-- `ALU(kind, x, y)` (R74). -/
def alu (policy : ArithOverflow) (kind : AluKind) (x y : Byte) : Except FaultReason Byte :=
  match kind with
  | .add => arith policy ((x.toNat : Int) + y.toNat)
  | .sub => arith policy ((x.toNat : Int) - y.toNat)
  | .other name => .error (.aluUnsupported (.other name))

end Sys2Proof.Machine
end

