-- ==== Sys2Proof/Machine/Ops.lean ====
section
/-! DEFINITION. The named operations over memory, registers, flags, pc, output and status: the primitives of R9 and R10, the stack
pointer updates, and raising a fault as the one shared operation (R92). A `FaultReason` answered by a primitive ends the
instruction; `commit` turns it into the FAULTED state of the state BEFORE the instruction. -/

namespace Sys2Proof.Machine

/-- The value of a cell: the listed one, else 0 (R32). -/
def Memory.read : Memory → Nat → Byte
  | [], _ => 0
  | (b, w) :: m, a => if b = a then w else Memory.read m a

/-- The list without the cell `a`. -/
def Memory.erase (m : Memory) (a : Nat) : Memory :=
  m.filter fun c => c.1 != a

/-- Put a cell before the first one with a higher address. -/
def Memory.insert : Memory → Nat → Byte → Memory
  | [], a, v => [(a, v)]
  | (b, w) :: m, a, v => if a < b then (a, v) :: (b, w) :: m else (b, w) :: Memory.insert m a v

/-- Write a cell and keep the canonical form: a 0 is what an unlisted cell reads as, so it is not listed. -/
def Memory.write (m : Memory) (a : Nat) (v : Byte) : Memory :=
  if v = 0 then m.erase a else (m.erase a).insert a v

/-- Every listed address is at least `lo` and below 128, they rise strictly, and no listed value is 0. -/
def Memory.wfFrom : Nat → Memory → Bool
  | _, [] => true
  | lo, (a, v) :: m => decide (lo ≤ a) && decide (a < 128) && v != 0 && Memory.wfFrom (a + 1) m

/-- The canonical form of memory. -/
def Memory.wf (m : Memory) : Bool := m.wfFrom 0

/-- Write bytes at rising addresses from `a`; an address of 128 or more does not exist and takes nothing. -/
def Memory.place : Memory → Nat → List Byte → Memory
  | m, _, [] => m
  | m, a, v :: vs => (if a < 128 then m.write a v else m).place (a + 1) vs

/-- `x[i]` (R9). -/
def State.reg (s : State) (i : RegNo) : Byte := s.regs[i]

/-- `x[i] <- v` (R9). No register is hard-wired (R16). -/
def State.setReg (s : State) (i : RegNo) (v : Byte) : State := { s with regs := s.regs.set i v }

/-- `SP`, another name of `x[7]` (R9, R18). -/
def State.sp (s : State) : Byte := s.reg spIndex

/-- `FL[i]` (R9). -/
def State.flag (s : State) (i : FlagNo) : Bool := s.flags[i]

/-- `FL[i] <- 1`; no instruction writes a 0 (R24, R85). -/
def State.raiseFlag (s : State) (i : FlagNo) : State := { s with flags := s.flags.set i true }

/-- `pc <- target`, unchecked (R68). -/
def State.setPc (s : State) (target : Byte) : State := { s with pc := target }

/-- The address `k` bytes after the opcode byte, as an 8-bit value. For an instruction that was fetched it is at most 130 and
nothing is lost (R21, R67). -/
def State.pcPlus (s : State) (k : Nat) : Byte := s.pc + BitVec.ofNat 8 k

/-- The fixed pc policy: `pc <- p + k` (R67). -/
def State.advance (s : State) (k : Nat) : State := s.setPc (s.pcPlus k)

/-- `emit(v)` (R10, R14). -/
def State.emit (s : State) (v : Byte) : State := { s with out := s.out ++ [v] }

/-- `M[a] <- v` (R9); `memWrite` checks the address. -/
def State.store (s : State) (a : Nat) (v : Byte) : State := { s with mem := s.mem.write a v }

/-- Status HALTED; nothing else changes (R78). -/
def State.halt (s : State) : State := { s with status := .halted }

/-- TAKING A FAULT: status becomes FAULTED(reason) with the pc of the faulting instruction, and nothing else changes (R92). There is
no handler, nothing is saved, and no instruction returns from it (R95, R96); only reset leaves it. -/
def State.raise (s : State) (r : FaultReason) : State := { s with status := .faulted r s.pc }

/-- An instruction either commits all its writes or, at its first fault, none of them (R11, R92): `s` is the state before it. -/
def commit (s : State) : Except FaultReason State → Host.Outcome State Fault Refusal
  | .ok t => .next t
  | .error r => .next (s.raise r)

/-- `MemRead(a, 1)` (R10, R36). -/
def memRead (s : State) (a : Nat) : Except FaultReason Byte :=
  if a < 128 then .ok (s.mem.read a) else .error (.outOfBounds .memory a)

/-- `MemWrite(a, 1, v)` (R10, R36). -/
def memWrite (s : State) (a : Nat) (v : Byte) : Except FaultReason State :=
  if a < 128 then .ok (s.store a v) else .error (.outOfBounds .memory a)

/-- `FetchByte(a)`: the tolerant read, `none` for NONE (R10, R64). -/
def fetchByte (m : Memory) (a : Nat) : Option Byte :=
  if a < 128 then some (m.read a) else none

/-- `x[7] <- arith(x[7] - 1)`, the pre-decrement of a push (R41, R72). -/
def decSp (s : State) : Except FaultReason State := do
  let sp ← arith s.params.arithOverflow ((s.sp.toNat : Int) - 1)
  pure (s.setReg spIndex sp)

/-- `x[7] <- arith(x[7] + 1)`, the post-increment of a pop (R41, R72). -/
def incSp (s : State) : Except FaultReason State := do
  let sp ← arith s.params.arithOverflow ((s.sp.toNat : Int) + 1)
  pure (s.setReg spIndex sp)

end Sys2Proof.Machine
end

