-- ==== Sys2Proof/Machine/Flags.lean ====
section
/-! DEFINITION. The flag computation of CMP, the only one of the block (R22, R85). -/

namespace Sys2Proof.Machine

/-- The one flag a comparison selects: L if less, G if greater, E if equal, unsigned (R85). -/
def compareFlag (x y : Byte) : FlagNo :=
  if x.toNat < y.toNat then flagL else if y.toNat < x.toNat then flagG else flagE

/-- The branch condition that JEQ and JNE read: FL[7] (R22, R87, R88). -/
def State.equalFlag (s : State) : Bool := s.flag flagE

end Sys2Proof.Machine
end

