-- ==== Sys2Proof/Machine/Operands.lean ====
section
/-! DEFINITION. The two operand forms of R52: a register index, checked when the register is accessed, and LDI's immediate. -/

namespace Sys2Proof.Machine

/-- `RegIndex(k)`: the whole byte names the register; 8 or more raises OutOfBounds(REGISTER, k) (R10, R52). -/
def regIndex (k : Byte) : Except FaultReason RegNo :=
  if h : k.toNat < 8 then .ok ⟨k.toNat, h⟩ else .error (.outOfBounds .register k.toNat)

/-- An immediate byte is its own value: zext_8, never checked (R52). -/
def immediate (b : Byte) : Byte := b

end Sys2Proof.Machine
end

