-- ==== Sys2Proof/Machine/Control.lean ====
section
/-! DEFINITION. CALL, RET, CMP, JMP, JEQ and JNE (44_control_flow.md). -/

namespace Sys2Proof.Machine

/-- CALL rA (R83): pushes p + 2; x[A] is read after the SP update. -/
def execCall (a : Byte) (s : State) : Host.Outcome State Fault Refusal :=
  commit s do
    let A ← regIndex a
    let s₁ ← decSp s
    let s₂ ← memWrite s₁ s₁.sp.toNat (s.pcPlus 2)
    pure (s₂.setPc (s₂.reg A))

/-- RET (R84). -/
def execRet (s : State) : Host.Outcome State Fault Refusal :=
  commit s do
    let t ← memRead s s.sp.toNat
    let s₁ ← incSp s
    pure (s₁.setPc t)

/-- CMP rA, rB (R85): writes a 1 to one flag and nothing to the others (C2). -/
def execCmp (a b : Byte) (s : State) : Host.Outcome State Fault Refusal :=
  commit s do
    let A ← regIndex a
    let B ← regIndex b
    pure ((s.raiseFlag (compareFlag (s.reg A) (s.reg B))).advance 3)

/-- JMP rA (R86). -/
def execJmp (a : Byte) (s : State) : Host.Outcome State Fault Refusal :=
  commit s do
    let A ← regIndex a
    pure (s.setPc (s.reg A))

/-- JEQ rA (R87): the register is accessed, and checked, only when the branch is taken. -/
def execJeq (a : Byte) (s : State) : Host.Outcome State Fault Refusal :=
  commit s do
    if s.equalFlag then
      let A ← regIndex a
      pure (s.setPc (s.reg A))
    else
      pure (s.advance 2)

/-- JNE rA (R88): the register is accessed, and checked, only when the branch is taken. -/
def execJne (a : Byte) (s : State) : Host.Outcome State Fault Refusal :=
  commit s do
    if s.equalFlag then
      pure (s.advance 2)
    else
      let A ← regIndex a
      pure (s.setPc (s.reg A))

end Sys2Proof.Machine
end

