-- ==== Sys2Proof/Machine/DataArith.lean ====
section
/-! DEFINITION. LDI, ADD and MUL (41_data_arith.md). -/

namespace Sys2Proof.Machine

/-- LDI rA, imm (R75). -/
def execLdi (a imm : Byte) (s : State) : Host.Outcome State Fault Refusal :=
  commit s do
    let A ← regIndex a
    pure ((s.setReg A (immediate imm)).advance 3)

/-- ADD rA, rB (R76): through the ALU (D19). -/
def execAdd (a b : Byte) (s : State) : Host.Outcome State Fault Refusal :=
  commit s do
    let A ← regIndex a
    let B ← regIndex b
    let v ← alu s.params.arithOverflow .add (s.reg A) (s.reg B)
    pure ((s.setReg A v).advance 3)

/-- MUL rA, rB (R77): not through the ALU (C4). -/
def execMul (a b : Byte) (s : State) : Host.Outcome State Fault Refusal :=
  commit s do
    let A ← regIndex a
    let B ← regIndex b
    let v ← arith s.params.arithOverflow (((s.reg A).toNat : Int) * (s.reg B).toNat)
    pure ((s.setReg A v).advance 3)

end Sys2Proof.Machine
end

