-- ==== Sys2Proof/Machine/OutputHalt.lean ====
section
/-! DEFINITION. HLT and PRN (42_output_halt.md). -/

namespace Sys2Proof.Machine

/-- HLT (R78): the terminal pc policy, pc stays (R67). -/
def execHlt (s : State) : Host.Outcome State Fault Refusal :=
  commit s (.ok s.halt)

/-- PRN rA (R79). -/
def execPrn (a : Byte) (s : State) : Host.Outcome State Fault Refusal :=
  commit s do
    let A ← regIndex a
    pure ((s.emit (s.reg A)).advance 2)

end Sys2Proof.Machine
end

