-- ==== Sys2Proof/Machine/Stack.lean ====
section
/-! DEFINITION. PUSH and POP (43_stack.md). The statements run in the source's order (D9), so register 7 as the operand needs no case
of its own. -/

namespace Sys2Proof.Machine

/-- PUSH rA (R80): x[A] is read after the SP update. -/
def execPush (a : Byte) (s : State) : Host.Outcome State Fault Refusal :=
  commit s do
    let A ← regIndex a
    let s₁ ← decSp s
    let s₂ ← memWrite s₁ s₁.sp.toNat (s₁.reg A)
    pure (s₂.advance 2)

/-- POP rA (R81): if A is 7, the increment acts on the value just loaded. -/
def execPop (a : Byte) (s : State) : Host.Outcome State Fault Refusal :=
  commit s do
    let A ← regIndex a
    let v ← memRead s s.sp.toNat
    let s₁ ← incSp (s.setReg A v)
    pure (s₁.advance 2)

end Sys2Proof.Machine
end

