-- ==== Sys2Proof/Machine/Fetch.lean ====
section
/-! DEFINITION. Stages 1 to 3 of the step: fetch, decode, operand availability (R63, R64, R65), and placing an instruction's bytes
where the next fetch reads them. -/

namespace Sys2Proof.Machine

/-- The fetch unit (R64): the opcode read is checked, the two operand reads are tolerant and happen whatever the opcode is. The
three latches are transient and live in the answer only (R29). -/
def fetch (s : State) : Except FaultReason FetchWindow :=
  let p := s.pc.toNat
  if p < 128 then .ok ⟨s.mem.read p, fetchByte s.mem (p + 1), fetchByte s.mem (p + 2)⟩
  else .error (.outOfBounds .fetch p)

/-- The fault of a failed decode at `p` (R63, R65, R90). -/
def decodeFault (p : Nat) : DecodeError → FaultReason
  | .noOpcode => .outOfBounds .fetch p
  | .invalidOpcode op => .invalidOpcode op
  | .missingA => .outOfBounds .operand (p + 1)
  | .missingB => .outOfBounds .operand (p + 2)

/-- The instruction at the pc, or the first fault of stages 1 to 3 in the order of R93. -/
def fetchDecode (s : State) : Except FaultReason Instr :=
  match fetch s with
  | .error r => .error r
  | .ok w =>
    match decode s.params w with
    | .error e => .error (decodeFault s.pc.toNat e)
    | .ok i => .ok i

/-- `s` with bytes placed at the pc; bytes that would lie at 128 or more do not exist. -/
def State.placeAtPc (s : State) (bytes : List Byte) : State :=
  { s with mem := s.mem.place s.pc.toNat bytes }

end Sys2Proof.Machine
end

