-- ==== Sys2Proof/Machine/Step.lean ====
section
/-! DEFINITION. One step of the block (R62, R63). -/

namespace Sys2Proof.Machine

/-- One step: a parameter set that breaks R7 is refused; a HALTED or FAULTED block takes no step (R62); a RUNNING block fetches,
decodes and executes exactly one instruction (R63). -/
def step (s : State) : Host.Outcome State Fault Refusal :=
  if s.params.valid = false then .refused .badParameters
  else
    match s.status with
    | .halted => .fault .halted
    | .faulted r pc => .fault (.faulted r pc)
    | .running =>
      match fetchDecode s with
      | .error r => .next (s.raise r)
      | .ok i => exec i s

/-- `s` with the instruction of table word `w` at the pc, where the next step fetches. It stands for the host's load (R106,
log entry 6). -/
def State.withFetchWord (s : State) (nbits w : Nat) : State :=
  s.placeAtPc (tableBytes nbits w)

end Sys2Proof.Machine
end

