-- ==== Sys2Proof/Machine/Interface.lean ====
section
/-! DEFINITION. The block's channels besides the step (R12): reset, load, status, debug, and the host's view of the end of a run. -/

namespace Sys2Proof.Machine

/-- The `reset` event: every piece of state to its reset value, in any run state (R105). The parameters are the machine's and stay. -/
def State.applyReset (s : State) : State := State.resetWith s.params

/-- Why the host refuses to start a run (R7, R106, I15). DESIGN CHOICE (log entry 12): the spec has one 'load-time error'; the model
tells its causes apart. -/
inductive LoadError where
  /-- The parameter set breaks R7. -/
  | badParameters
  /-- The image has more than 128 bytes. -/
  | imageTooLong
  /-- A value of the image exceeds 255. -/
  | valueTooLarge
  deriving DecidableEq, Repr

/-- Reset, then the load of an image from address 0 (R106, R107). The load is part of starting a run, since the host writes memory
at no other time (R49, log entry 9). DESIGN CHOICE (log entry 12): where several causes of a refusal hold, the first of bad parameters,
image too long, value too large is answered. -/
def State.boot (p : Params) (image : List Nat) : Except LoadError State :=
  if p.valid = false then .error .badParameters
  else if 128 < image.length then .error .imageTooLong
  else if image.any (fun v => decide (255 < v)) then .error .valueTooLarge
  else
    let s := State.resetWith p
    .ok { s with mem := s.mem.place 0 (image.map (BitVec.ofNat 8)) }

/-- The status codes of R26. -/
def RunStatus.code : RunStatus → Nat
  | .running => 0
  | .halted => 1
  | .faulted _ _ => 2

/-- The fault codes of R89. -/
def FaultReason.code : FaultReason → Nat
  | .invalidOpcode _ => 1
  | .outOfBounds _ _ => 2
  | .arithOverflow _ => 3
  | .aluUnsupported _ => 4

/-- What the `status` port shows: the code, and for FAULTED the reason and the faulting pc (R26). -/
def State.statusPort (s : State) : Nat × Option (FaultReason × Byte) :=
  match s.status with
  | .running => (RunStatus.code .running, none)
  | .halted => (RunStatus.code .halted, none)
  | .faulted r pc => (RunStatus.code (.faulted r pc), some (r, pc))

/-- The tuple of the `debug` port (R102). -/
structure Trace where
  pc : Byte
  m0 : Option Byte
  m1 : Option Byte
  m2 : Option Byte
  regs : Vector Byte 8
  deriving DecidableEq, Repr

/-- The debug trace: pc, the three cells from pc (NONE from 128 up) and the 8 registers. Reading it changes nothing and raises
nothing, in any run state (R102). -/
def State.trace (s : State) : Trace where
  pc := s.pc
  m0 := fetchByte s.mem s.pc.toNat
  m1 := fetchByte s.mem (s.pc.toNat + 1)
  m2 := fetchByte s.mem (s.pc.toNat + 2)
  regs := s.regs

/-- The kinds of end the host shows (R104). The texts and the numeric exit codes are not in the source (N18, N19). -/
inductive HostEnd where
  /-- The fixed "Exiting..." line, exit status 0. -/
  | exitZero
  /-- A diagnostic naming the bad instruction value, a non-zero exit code. -/
  | badInstruction (op : Byte)
  /-- A short message, a non-zero exit code. -/
  | fatal
  deriving DecidableEq, Repr

/-- The host's view of the final status; a RUNNING block has not ended (R71, R104). -/
def RunStatus.hostEnd : RunStatus → Option HostEnd
  | .running => none
  | .halted => some .exitZero
  | .faulted (.invalidOpcode op) _ => some (.badInstruction op)
  | .faulted _ _ => some .fatal

/-- The host's lines for `out`: each value in decimal with no leading zeros, one a line (R14, R79, D13). -/
def State.outLines (s : State) : List String :=
  s.out.map fun v => toString v.toNat

end Sys2Proof.Machine
end

