-- ==== Sys2Proof/Safety.lean ====
section
/-! DEFINITION. What the statements speak of: a block that can take a step, what a state keeps, what it is to end in a fault, the
invariant, and a run under fuel. -/

namespace Sys2Proof.Machine

/-- The block takes steps: its parameters are legal (R7) and it is RUNNING (R62). -/
abbrev State.ready (s : State) : Prop := s.params.valid = true ∧ s.status = .running

/-- The outcome is the FAULTED form of `s`: the status, and nothing but the status, differs (R92). -/
def FaultsWith (o : Host.Outcome State Fault Refusal) (s : State) (r : FaultReason) : Prop :=
  o = .next { s with status := .faulted r s.pc }

/-- No member. -/
def nothing {α : Type} : α → Prop := fun _ => False

/-- `t` keeps of `s` every register outside `regs`, every flag outside `flags`, the byte at every address outside `addrs`, and the
parameters. -/
def State.KeptExcept (s t : State) (regs : RegNo → Prop) (flags : FlagNo → Prop) (addrs : Nat → Prop) : Prop :=
  (∀ i, ¬ regs i → t.reg i = s.reg i) ∧ (∀ i, ¬ flags i → t.flag i = s.flag i) ∧
    (∀ a, ¬ addrs a → t.mem.read a = s.mem.read a) ∧ t.params = s.params

/-- `t` is `s` with a fault raised, or it has the status of `s`. -/
def State.SameStatusOrFaulted (s t : State) : Prop :=
  t.status = s.status ∨ ∃ r, t = { s with status := .faulted r s.pc }

/-- The invariant: memory is canonical, FL[0] to FL[4] are 0 (R23), and a recorded faulting pc is the pc (R92). -/
def State.Inv (s : State) : Prop :=
  s.mem.wf = true ∧ (∀ i : FlagNo, i.val < 5 → s.flag i = false) ∧ ∀ r q, s.status = .faulted r q → q = s.pc

/-- The two states differ at most in their flags. -/
def State.SameButFlags (s t : State) : Prop :=
  s.regs = t.regs ∧ s.pc = t.pc ∧ s.mem = t.mem ∧ s.status = t.status ∧ s.out = t.out ∧ s.params = t.params

/-- The two states differ at most in their output streams. -/
def State.SameButOut (s t : State) : Prop :=
  s.regs = t.regs ∧ s.pc = t.pc ∧ s.flags = t.flags ∧ s.mem = t.mem ∧ s.status = t.status ∧ s.params = t.params

/-- A run under fuel: the state it reaches (R71). -/
def runFor : Nat → State → State
  | 0, s => s
  | k + 1, s =>
    match step s with
    | .next t => runFor k t
    | .fault _ => s
    | .refused _ => s

/-- How a run stands (R71): normally ended, ended in a fault, or not ended. -/
inductive RunEnd where
  | normal
  | faulted (reason : FaultReason) (pc : Byte)
  | notEnded
  deriving DecidableEq, Repr

/-- The end of a run under fuel; a run still RUNNING when the fuel is spent has not ended (R71). -/
def runEnd (fuel : Nat) (s : State) : RunEnd :=
  match (runFor fuel s).status with
  | .running => .notEnded
  | .halted => .normal
  | .faulted r pc => .faulted r pc

end Sys2Proof.Machine
end

