-- ==== Sys2Proof/Certificates/Slice0/Obligations.lean ====
section
/-! DEFINITION. The statements for the provers. Each docstring names the rules of spec/ it formalises. Every statement about an
instruction holds for both ARITH_OVERFLOW policies and for every parameter set, the opcode values among it. -/

open Sys2Proof Sys2Proof.Machine

/-! ## Encoding -/

/-- R50 to R55: under legal parameters the decoder reads back every instruction, with every operand byte, from its encoding, whatever
bytes follow it. -/
def Obligations.DecodeOfEncode : Prop :=
  ∀ (p : Params) (i : Instr) (rest : List Byte), p.valid = true →
    decodeBytes p (encode p i ++ rest) = .ok (i, rest)

/-- R50 to R55: whatever the parameters, the bytes the decoder accepts are exactly the encoding of the instruction it answers, and the
rest is what follows. -/
def Obligations.EncodeOfDecode : Prop :=
  ∀ (p : Params) (i : Instr) (bytes rest : List Byte),
    decodeBytes p bytes = .ok (i, rest) → bytes = encode p i ++ rest

/-- Words written out from the table of R54, under the default parameters. The values of MUL, PUSH, POP, CALL, RET, CMP, JMP, JEQ and
JNE are general knowledge (GK2, log entry 4). -/
def Obligations.WrittenWordsDecode : Prop :=
  decodeTableWord 8 0x01 = some .hlt ∧
  decodeTableWord 24 0x080082 = some (.ldi 0 8) ∧
  decodeTableWord 24 0x0100A0 = some (.add 0 1) ∧
  decodeTableWord 24 0x0100A2 = some (.mul 0 1) ∧
  decodeTableWord 16 0x0047 = some (.prn 0) ∧
  decodeTableWord 16 0x0745 = some (.push 7) ∧
  decodeTableWord 16 0x0246 = some (.pop 2) ∧
  decodeTableWord 16 0x0150 = some (.call 1) ∧
  decodeTableWord 8 0x11 = some .ret ∧
  decodeTableWord 24 0x0302A7 = some (.cmp 2 3) ∧
  decodeTableWord 16 0x0354 = some (.jmp 3) ∧
  decodeTableWord 16 0xFF55 = some (.jeq 0xFF) ∧
  decodeTableWord 16 0x0356 = some (.jne 3)

/-- R55: under legal parameters a byte selects an opcode if and only if it IS that opcode's byte, whole. -/
def Obligations.OpcodeMatchIsExact : Prop :=
  ∀ (p : Params) (op : Byte) (o : Opcode), p.valid = true →
    (decodeOpcode p op = some o ↔ o.byte p = op)

/-- R57: under the default parameters (log entry 4) exactly 243 byte values are illegal, 0x00 and 0xFF among them. -/
def Obligations.IllegalOpcodes : Prop :=
  ((List.range 256).filter fun n => decodeOpcode Params.default (BitVec.ofNat 8 n) = none).length = 243 ∧
  decodeOpcode Params.default 0x00 = none ∧ decodeOpcode Params.default 0xFF = none

/-- Rests on R7: a parameter set is legal exactly when the thirteen opcode values are pairwise distinct and none is 0xFF; with an illegal
one no step and no load happens. Three things are the model's choice: that nothing else is asked, so 0x00 is allowed (log entry 13);
that the step is what refuses (log entry 2); and that the load names this cause, before any fault of the image (log entry 12). -/
def Obligations.IllegalParametersAreRefused : Prop :=
  (∀ p : Params, p.valid = true ↔
    (∀ o o' : Opcode, o.byte p = o'.byte p → o = o') ∧ ∀ o : Opcode, o.byte p ≠ 0xFF) ∧
  (∀ s : State, s.params.valid = false → step s = .refused .badParameters) ∧
  ∀ (p : Params) (image : List Nat), p.valid = false → State.boot p image = .error .badParameters

/-! ## The step -/

/-- R63: when the bytes at the pc decode to an instruction, the step is exactly its execution; the instruction itself moves the pc. -/
def Obligations.StepRunsDecodedInstruction : Prop :=
  ∀ (s : State) (i : Instr), s.ready → s.pc.toNat < 128 →
    decode s.params ⟨s.mem.read s.pc.toNat, fetchByte s.mem (s.pc.toNat + 1), fetchByte s.mem (s.pc.toNat + 2)⟩ = .ok i →
    step s = exec i s

/-- R63: when memory holds the encoding of an instruction at the pc, the step executes that instruction. -/
def Obligations.StepRunsStoredEncoding : Prop :=
  ∀ (s : State) (i : Instr), s.ready → s.pc.toNat + i.length ≤ 128 →
    (∀ k, k < i.length → (encode s.params i)[k]? = some (s.mem.read (s.pc.toNat + k))) →
    step s = exec i s

/-- R64, R36: a fetch at a pc of 128 or more faults with the pc as the recorded value. -/
def Obligations.FetchPastMemoryFaults : Prop :=
  ∀ s : State, s.ready → 128 ≤ s.pc.toNat →
    FaultsWith (step s) s (.outOfBounds .fetch s.pc.toNat)

/-- R90: a byte that is no opcode's faults wherever it lies, 126 and 127 included, and changes nothing but the status. -/
def Obligations.InvalidOpcodeFaults : Prop :=
  ∀ s : State, s.ready → s.pc.toNat < 128 → (∀ o : Opcode, o.byte s.params ≠ s.mem.read s.pc.toNat) →
    FaultsWith (step s) s (.invalidOpcode (s.mem.read s.pc.toNat))

/-- R65: the operands an instruction consumes must exist, A before B, and an operand it does not consume is never examined (`build`
drops it). -/
def Obligations.ConsumedOperandsMustExist : Prop :=
  ∀ (s : State) (o : Opcode), s.ready → s.pc.toNat < 128 → s.mem.read s.pc.toNat = o.byte s.params →
    (1 ≤ o.operandCount → s.pc.toNat = 127 → FaultsWith (step s) s (.outOfBounds .operand 128)) ∧
    (o.operandCount = 2 → s.pc.toNat = 126 → FaultsWith (step s) s (.outOfBounds .operand (s.pc.toNat + 2))) ∧
    (s.pc.toNat + o.operandCount < 128 →
      step s = exec (o.build (s.mem.read (s.pc.toNat + 1)) (s.mem.read (s.pc.toNat + 2))) s)

/-- R62: a HALTED or FAULTED block takes no step, and reset makes it RUNNING. That 'no step' is the outcome `fault`, with these
reasons, is the model's choice (log entry 1). -/
def Obligations.NoStepAfterTheEnd : Prop :=
  ∀ s : State, s.params.valid = true →
    (s.status = .halted → step s = .fault .halted) ∧
    (∀ r q, s.status = .faulted r q → step s = .fault (.faulted r q)) ∧
    s.applyReset.status = .running

/-- R70: every instruction in every state, and every step of a RUNNING block with legal parameters, answers a next state. -/
def Obligations.EveryRunningStepAnswers : Prop :=
  (∀ (i : Instr) (s : State), ∃ t, exec i s = .next t) ∧ ∀ s : State, s.ready → ∃ t, step s = .next t

/-- R92: a step that ends FAULTED changed nothing but the status, recorded its own pc, and is the last step. -/
def Obligations.FaultsArePreciseAndTerminal : Prop :=
  ∀ (s t : State) (r : FaultReason) (q : Byte), step s = .next t → t.status = .faulted r q →
    q = s.pc ∧ t = { s with status := .faulted r s.pc } ∧ ∀ u, step t ≠ .next u

/-- R89: the reasons a step can record, each with the condition it stands for; AluUnsupported is never among them. -/
def Obligations.RecordedReasonsAreTheListedOnes : Prop :=
  ∀ (s t : State) (r : FaultReason) (q : Byte), step s = .next t → t.status = .faulted r q →
    match r with
    | .invalidOpcode op => s.pc.toNat < 128 ∧ op = s.mem.read s.pc.toNat ∧ ∀ o : Opcode, o.byte s.params ≠ op
    | .outOfBounds .fetch v => v = s.pc.toNat ∧ 128 ≤ v
    | .outOfBounds .operand v => v = 128 ∧ 126 ≤ s.pc.toNat
    | .outOfBounds .register v => 8 ≤ v ∧ v ≤ 255
    | .outOfBounds .memory v => 128 ≤ v ∧ v ≤ 255
    | .arithOverflow v => s.params.arithOverflow = .fault ∧ (v < 0 ∨ 255 < v)
    | .aluUnsupported _ => False

/-- R52, R108: an instruction whose register indices are all below 8 never raises OutOfBounds(REGISTER). -/
def Obligations.WellFormedNeverNamesAMissingRegister : Prop :=
  ∀ (i : Instr) (s t : State) (k : Nat) (q : Byte), i.wf = true → s.status = .running →
    exec i s = .next t → t.status ≠ .faulted (.outOfBounds .register k) q

/-! ## Instructions: encoding, exceptions in their order, result, completion -/

/-- R75. -/
def Obligations.LdiLoadsTheImmediate : Prop :=
  ∀ (s : State) (a imm : Byte),
    encode s.params (.ldi a imm) = [0x82, a, imm] ∧
    (s.ready → s.mem.read s.pc.toNat = 0x82 → 126 ≤ s.pc.toNat → s.pc.toNat < 128 →
      FaultsWith (step s) s (.outOfBounds .operand 128)) ∧
    (8 ≤ a.toNat → FaultsWith (exec (.ldi a imm) s) s (.outOfBounds .register a.toNat)) ∧
    ∀ A : RegNo, a.toNat = A.val →
      ∃ t, exec (.ldi a imm) s = .next t ∧ t.reg A = imm ∧ t.pc = s.pc + 3 ∧ t.status = s.status ∧ t.out = s.out ∧
        s.KeptExcept t (· = A) nothing nothing

/-- R76. -/
def Obligations.AddSumsRegisters : Prop :=
  ∀ (s : State) (a b : Byte),
    encode s.params (.add a b) = [0xA0, a, b] ∧
    (s.ready → s.mem.read s.pc.toNat = 0xA0 → 126 ≤ s.pc.toNat → s.pc.toNat < 128 →
      FaultsWith (step s) s (.outOfBounds .operand 128)) ∧
    (8 ≤ a.toNat → FaultsWith (exec (.add a b) s) s (.outOfBounds .register a.toNat)) ∧
    (a.toNat < 8 → 8 ≤ b.toNat → FaultsWith (exec (.add a b) s) s (.outOfBounds .register b.toNat)) ∧
    ∀ A B : RegNo, a.toNat = A.val → b.toNat = B.val →
      let sum := (s.reg A).toNat + (s.reg B).toNat
      (s.params.arithOverflow = .fault → 255 < sum →
        FaultsWith (exec (.add a b) s) s (.arithOverflow sum)) ∧
      (s.params.arithOverflow = .wrap ∨ sum ≤ 255 →
        ∃ t, exec (.add a b) s = .next t ∧ (t.reg A).toNat = sum % 256 ∧ t.pc = s.pc + 3 ∧ t.status = s.status ∧
          t.out = s.out ∧ s.KeptExcept t (· = A) nothing nothing)

/-- R77. -/
def Obligations.MulMultipliesRegisters : Prop :=
  ∀ (s : State) (a b : Byte),
    encode s.params (.mul a b) = [s.params.opcMul, a, b] ∧
    (s.ready → s.mem.read s.pc.toNat = s.params.opcMul → 126 ≤ s.pc.toNat → s.pc.toNat < 128 →
      FaultsWith (step s) s (.outOfBounds .operand 128)) ∧
    (8 ≤ a.toNat → FaultsWith (exec (.mul a b) s) s (.outOfBounds .register a.toNat)) ∧
    (a.toNat < 8 → 8 ≤ b.toNat → FaultsWith (exec (.mul a b) s) s (.outOfBounds .register b.toNat)) ∧
    ∀ A B : RegNo, a.toNat = A.val → b.toNat = B.val →
      let product := (s.reg A).toNat * (s.reg B).toNat
      (s.params.arithOverflow = .fault → 255 < product →
        FaultsWith (exec (.mul a b) s) s (.arithOverflow product)) ∧
      (s.params.arithOverflow = .wrap ∨ product ≤ 255 →
        ∃ t, exec (.mul a b) s = .next t ∧ (t.reg A).toNat = product % 256 ∧ t.pc = s.pc + 3 ∧ t.status = s.status ∧
          t.out = s.out ∧ s.KeptExcept t (· = A) nothing nothing)

/-- R78, with the pc that the spec's decision D11 fixes: HLT ends the run with the pc at the HLT, also at address 127. -/
def Obligations.HltHalts : Prop :=
  ∀ s : State,
    encode s.params .hlt = [0x01] ∧
    exec .hlt s = .next { s with status := .halted } ∧
    (s.ready → s.pc.toNat < 128 → s.mem.read s.pc.toNat = 0x01 →
      step s = .next { s with status := .halted } ∧ ∀ u, step { s with status := .halted } ≠ .next u)

/-- R79: on a bad index nothing is emitted (the FAULTED form keeps `out`). -/
def Obligations.PrnEmitsTheRegister : Prop :=
  ∀ (s : State) (a : Byte),
    encode s.params (.prn a) = [0x47, a] ∧
    (s.ready → s.mem.read s.pc.toNat = 0x47 → s.pc.toNat = 127 →
      FaultsWith (step s) s (.outOfBounds .operand 128)) ∧
    (8 ≤ a.toNat → FaultsWith (exec (.prn a) s) s (.outOfBounds .register a.toNat)) ∧
    ∀ A : RegNo, a.toNat = A.val →
      ∃ t, exec (.prn a) s = .next t ∧ t.out = s.out ++ [s.reg A] ∧ t.pc = s.pc + 2 ∧ t.status = s.status ∧
        s.KeptExcept t nothing nothing nothing

/-- R80, with the statement order the spec's decision D9 fixes: PUSH r7 stores the decremented SP. -/
def Obligations.PushStoresBelowSp : Prop :=
  ∀ (s : State) (a : Byte),
    encode s.params (.push a) = [s.params.opcPush, a] ∧
    (s.ready → s.mem.read s.pc.toNat = s.params.opcPush → s.pc.toNat = 127 →
      FaultsWith (step s) s (.outOfBounds .operand 128)) ∧
    (8 ≤ a.toNat → FaultsWith (exec (.push a) s) s (.outOfBounds .register a.toNat)) ∧
    ∀ A : RegNo, a.toNat = A.val →
      (s.params.arithOverflow = .fault → (s.reg 7).toNat = 0 →
        FaultsWith (exec (.push a) s) s (.arithOverflow (-1))) ∧
      (s.params.arithOverflow = .wrap → (s.reg 7).toNat = 0 →
        FaultsWith (exec (.push a) s) s (.outOfBounds .memory 255)) ∧
      (129 ≤ (s.reg 7).toNat →
        FaultsWith (exec (.push a) s) s (.outOfBounds .memory ((s.reg 7).toNat - 1))) ∧
      (1 ≤ (s.reg 7).toNat → (s.reg 7).toNat ≤ 128 →
        ∃ t, exec (.push a) s = .next t ∧ (t.reg 7).toNat = (s.reg 7).toNat - 1 ∧
          t.mem.read ((s.reg 7).toNat - 1) = (if A = 7 then s.reg 7 - 1 else s.reg A) ∧
          t.pc = s.pc + 2 ∧ t.status = s.status ∧ t.out = s.out ∧
          s.KeptExcept t (· = 7) nothing (· = (s.reg 7).toNat - 1))

/-- R81, with the statement order the spec's decision D9 fixes: POP r7 increments the value just loaded. -/
def Obligations.PopLoadsFromSp : Prop :=
  ∀ (s : State) (a : Byte),
    encode s.params (.pop a) = [s.params.opcPop, a] ∧
    (s.ready → s.mem.read s.pc.toNat = s.params.opcPop → s.pc.toNat = 127 →
      FaultsWith (step s) s (.outOfBounds .operand 128)) ∧
    (8 ≤ a.toNat → FaultsWith (exec (.pop a) s) s (.outOfBounds .register a.toNat)) ∧
    ∀ A : RegNo, a.toNat = A.val →
      let v := s.mem.read (s.reg 7).toNat
      (128 ≤ (s.reg 7).toNat →
        FaultsWith (exec (.pop a) s) s (.outOfBounds .memory (s.reg 7).toNat)) ∧
      ((s.reg 7).toNat < 128 → A = 7 → s.params.arithOverflow = .fault → v = 255 →
        FaultsWith (exec (.pop a) s) s (.arithOverflow 256)) ∧
      ((s.reg 7).toNat < 128 → (A = 7 → s.params.arithOverflow = .wrap ∨ v ≠ 255) →
        ∃ t, exec (.pop a) s = .next t ∧
          (if A = 7 then t.reg 7 = v + 1 else t.reg A = v ∧ (t.reg 7).toNat = (s.reg 7).toNat + 1) ∧
          t.pc = s.pc + 2 ∧ t.status = s.status ∧ t.out = s.out ∧
          s.KeptExcept t (fun i => i = A ∨ i = 7) nothing nothing)

/-- R83, with the statement order the spec's decision D9 fixes: CALL r7 jumps to the decremented SP. An instruction that was fetched has
p <= 126, so p + 2 fits in the stored byte. -/
def Obligations.CallPushesAndJumps : Prop :=
  ∀ (s : State) (a : Byte),
    encode s.params (.call a) = [s.params.opcCall, a] ∧
    (s.ready → s.mem.read s.pc.toNat = s.params.opcCall → s.pc.toNat = 127 →
      FaultsWith (step s) s (.outOfBounds .operand 128)) ∧
    (8 ≤ a.toNat → FaultsWith (exec (.call a) s) s (.outOfBounds .register a.toNat)) ∧
    ∀ A : RegNo, a.toNat = A.val →
      (s.params.arithOverflow = .fault → (s.reg 7).toNat = 0 →
        FaultsWith (exec (.call a) s) s (.arithOverflow (-1))) ∧
      (s.params.arithOverflow = .wrap → (s.reg 7).toNat = 0 →
        FaultsWith (exec (.call a) s) s (.outOfBounds .memory 255)) ∧
      (129 ≤ (s.reg 7).toNat →
        FaultsWith (exec (.call a) s) s (.outOfBounds .memory ((s.reg 7).toNat - 1))) ∧
      (1 ≤ (s.reg 7).toNat → (s.reg 7).toNat ≤ 128 →
        ∃ t, exec (.call a) s = .next t ∧ (t.reg 7).toNat = (s.reg 7).toNat - 1 ∧
          t.mem.read ((s.reg 7).toNat - 1) = BitVec.ofNat 8 (s.pc.toNat + 2) ∧
          t.pc = (if A = 7 then s.reg 7 - 1 else s.reg A) ∧ t.status = s.status ∧ t.out = s.out ∧
          s.KeptExcept t (· = 7) nothing (· = (s.reg 7).toNat - 1))

/-- R84: also at address 127, since RET uses no operand. -/
def Obligations.RetPopsThePc : Prop :=
  ∀ s : State,
    encode s.params .ret = [s.params.opcRet] ∧
    (s.ready → s.pc.toNat < 128 → s.mem.read s.pc.toNat = s.params.opcRet → step s = exec .ret s) ∧
    (128 ≤ (s.reg 7).toNat → FaultsWith (exec .ret s) s (.outOfBounds .memory (s.reg 7).toNat)) ∧
    ((s.reg 7).toNat < 128 →
      ∃ t, exec .ret s = .next t ∧ t.pc = s.mem.read (s.reg 7).toNat ∧
        (t.reg 7).toNat = (s.reg 7).toNat + 1 ∧ t.status = s.status ∧ t.out = s.out ∧
        s.KeptExcept t (· = 7) nothing nothing)

/-- R85: the sticky reading (C2): a 1 is written to exactly one flag and no flag is cleared. -/
def Obligations.CmpSetsOneFlag : Prop :=
  ∀ (s : State) (a b : Byte),
    encode s.params (.cmp a b) = [s.params.opcCmp, a, b] ∧
    (s.ready → s.mem.read s.pc.toNat = s.params.opcCmp → 126 ≤ s.pc.toNat → s.pc.toNat < 128 →
      FaultsWith (step s) s (.outOfBounds .operand 128)) ∧
    (8 ≤ a.toNat → FaultsWith (exec (.cmp a b) s) s (.outOfBounds .register a.toNat)) ∧
    (a.toNat < 8 → 8 ≤ b.toNat → FaultsWith (exec (.cmp a b) s) s (.outOfBounds .register b.toNat)) ∧
    ∀ A B : RegNo, a.toNat = A.val → b.toNat = B.val →
      ∃ t, exec (.cmp a b) s = .next t ∧ t.pc = s.pc + 3 ∧ t.status = s.status ∧ t.out = s.out ∧
        ((s.reg A).toNat < (s.reg B).toNat → t.flag 5 = true ∧ s.KeptExcept t nothing (· = 5) nothing) ∧
        ((s.reg A).toNat > (s.reg B).toNat → t.flag 6 = true ∧ s.KeptExcept t nothing (· = 6) nothing) ∧
        (s.reg A = s.reg B → t.flag 7 = true ∧ s.KeptExcept t nothing (· = 7) nothing)

/-- R86: any 8-bit target is written. -/
def Obligations.JmpJumps : Prop :=
  ∀ (s : State) (a : Byte),
    encode s.params (.jmp a) = [s.params.opcJmp, a] ∧
    (s.ready → s.mem.read s.pc.toNat = s.params.opcJmp → s.pc.toNat = 127 →
      FaultsWith (step s) s (.outOfBounds .operand 128)) ∧
    (8 ≤ a.toNat → FaultsWith (exec (.jmp a) s) s (.outOfBounds .register a.toNat)) ∧
    ∀ A : RegNo, a.toNat = A.val →
      ∃ t, exec (.jmp a) s = .next t ∧ t.pc = s.reg A ∧ t.status = s.status ∧ t.out = s.out ∧
        s.KeptExcept t nothing nothing nothing

/-- R87: a JEQ that is not taken completes with any operand byte (D23). -/
def Obligations.JeqJumpsIfEqual : Prop :=
  ∀ (s : State) (a : Byte),
    encode s.params (.jeq a) = [s.params.opcJeq, a] ∧
    (s.ready → s.mem.read s.pc.toNat = s.params.opcJeq → s.pc.toNat = 127 →
      FaultsWith (step s) s (.outOfBounds .operand 128)) ∧
    (s.flag 7 = true → 8 ≤ a.toNat → FaultsWith (exec (.jeq a) s) s (.outOfBounds .register a.toNat)) ∧
    (s.flag 7 = true → ∀ A : RegNo, a.toNat = A.val →
      ∃ t, exec (.jeq a) s = .next t ∧ t.pc = s.reg A ∧ t.status = s.status ∧ t.out = s.out ∧
        s.KeptExcept t nothing nothing nothing) ∧
    (s.flag 7 = false →
      ∃ t, exec (.jeq a) s = .next t ∧ t.pc = s.pc + 2 ∧ t.status = s.status ∧ t.out = s.out ∧
        s.KeptExcept t nothing nothing nothing)

/-- R88: a JNE that is not taken completes with any operand byte (D23). -/
def Obligations.JneJumpsIfNotEqual : Prop :=
  ∀ (s : State) (a : Byte),
    encode s.params (.jne a) = [s.params.opcJne, a] ∧
    (s.ready → s.mem.read s.pc.toNat = s.params.opcJne → s.pc.toNat = 127 →
      FaultsWith (step s) s (.outOfBounds .operand 128)) ∧
    (s.flag 7 = false → 8 ≤ a.toNat → FaultsWith (exec (.jne a) s) s (.outOfBounds .register a.toNat)) ∧
    (s.flag 7 = false → ∀ A : RegNo, a.toNat = A.val →
      ∃ t, exec (.jne a) s = .next t ∧ t.pc = s.reg A ∧ t.status = s.status ∧ t.out = s.out ∧
        s.KeptExcept t nothing nothing nothing) ∧
    (s.flag 7 = true →
      ∃ t, exec (.jne a) s = .next t ∧ t.pc = s.pc + 2 ∧ t.status = s.status ∧ t.out = s.out ∧
        s.KeptExcept t nothing nothing nothing)

/-! ## Frames: for EVERY next state, the FAULTED ones included -/

/-- R19: LDI, ADD and MUL change at most the register operand A names, the pc and, by a fault, the status. -/
def Obligations.FrameOfRegisterResults : Prop :=
  ∀ (s t : State) (a b : Byte),
    exec (.ldi a b) s = .next t ∨ exec (.add a b) s = .next t ∨ exec (.mul a b) s = .next t →
    s.KeptExcept t (fun i => i.val = a.toNat) nothing nothing ∧ t.out = s.out ∧ s.SameStatusOrFaulted t

/-- R19, R22: HLT, PRN, CMP, JMP, JEQ and JNE write no register and no memory; only CMP writes flags, of L, G and E; only PRN
emits. -/
def Obligations.FrameOfTheRest : Prop :=
  ∀ (s t : State) (a b : Byte),
    (exec .hlt s = .next t → s.KeptExcept t nothing nothing nothing ∧ t.out = s.out) ∧
    (exec (.prn a) s = .next t → s.KeptExcept t nothing nothing nothing ∧ s.SameStatusOrFaulted t) ∧
    (exec (.cmp a b) s = .next t →
      s.KeptExcept t nothing (fun i => 5 ≤ i.val) nothing ∧ t.out = s.out ∧ s.SameStatusOrFaulted t) ∧
    (exec (.jmp a) s = .next t ∨ exec (.jeq a) s = .next t ∨ exec (.jne a) s = .next t →
      s.KeptExcept t nothing nothing nothing ∧ t.out = s.out ∧ s.SameStatusOrFaulted t)

/-- R19, R41: PUSH and CALL change at most SP and the byte at the SP that the pre-decrement of `s` gives, computed by the operation the
meanings use (where the decrement faults, no byte at all). -/
def Obligations.FrameOfPushAndCall : Prop :=
  ∀ (s t : State) (a : Byte), exec (.push a) s = .next t ∨ exec (.call a) s = .next t →
    s.KeptExcept t (· = 7) nothing (fun addr => ∃ s₁, decSp s = .ok s₁ ∧ addr = s₁.sp.toNat) ∧
      t.out = s.out ∧ s.SameStatusOrFaulted t

/-- R19, R41: POP changes at most the register operand A names and SP, RET at most SP; neither changes memory. -/
def Obligations.FrameOfPopAndRet : Prop :=
  ∀ (s t : State) (a : Byte),
    (exec (.pop a) s = .next t →
      s.KeptExcept t (fun i => i.val = a.toNat ∨ i = 7) nothing nothing ∧ t.out = s.out ∧ s.SameStatusOrFaulted t) ∧
    (exec .ret s = .next t →
      s.KeptExcept t (· = 7) nothing nothing ∧ t.out = s.out ∧ s.SameStatusOrFaulted t)

/-! ## Rules of the whole machine -/

/-- R67: the four pc policies of an instruction that raises no fault. CALL's x[A] is read after the SP update, and CALL writes no other
register, so it is the register's value after the instruction. -/
def Obligations.PcPolicies : Prop :=
  ∀ (i : Instr) (s t : State), s.status = .running → s.pc.toNat < 128 → exec i s = .next t →
    (∀ r q, t.status ≠ .faulted r q) →
    match i with
    | .ldi _ _ | .add _ _ | .mul _ _ | .cmp _ _ => t.pc.toNat = s.pc.toNat + 3
    | .prn _ | .push _ | .pop _ => t.pc.toNat = s.pc.toNat + 2
    | .call a => ∃ A : RegNo, a.toNat = A.val ∧ t.pc = t.reg A
    | .jmp a => ∃ A : RegNo, a.toNat = A.val ∧ t.pc = s.reg A
    | .ret => t.pc = s.mem.read (s.reg 7).toNat
    | .jeq a => if s.flag 7 = true then ∃ A : RegNo, a.toNat = A.val ∧ t.pc = s.reg A
        else t.pc.toNat = s.pc.toNat + 2
    | .jne a => if s.flag 7 = false then ∃ A : RegNo, a.toNat = A.val ∧ t.pc = s.reg A
        else t.pc.toNat = s.pc.toNat + 2
    | .hlt => t.status = .halted ∧ t.pc = s.pc

/-- R24: only CMP writes flags, it writes at most one and writes it to 1, and no step ever clears a flag. -/
def Obligations.FlagsAreSticky : Prop :=
  (∀ (i : Instr) (s t : State), exec i s = .next t →
    ((∀ a b, i ≠ .cmp a b) → ∀ f, t.flag f = s.flag f) ∧
    ∃ k, ∀ f, t.flag f = s.flag f ∨ f = k ∧ t.flag f = true) ∧
  ∀ (s t : State), step s = .next t → ∀ f, s.flag f = true → t.flag f = true

/-- R22, R23: no program can observe a flag other than FL[7]: two states that differ only in the other flags step to states that
differ only in the other flags. -/
def Obligations.OnlyTheEqualFlagIsObserved : Prop :=
  ∀ s₁ s₂ t₁ : State, s₁.SameButFlags s₂ → s₁.flag 7 = s₂.flag 7 → step s₁ = .next t₁ →
    ∃ t₂, step s₂ = .next t₂ ∧ t₁.SameButFlags t₂ ∧ t₁.flag 7 = t₂.flag 7

/-- R100, R31: a program cannot read `out`: two states that differ only in it take the same step and append the same values. -/
def Obligations.OutputIsNeverRead : Prop :=
  ∀ s₁ s₂ t₁ : State, s₁.SameButOut s₂ → step s₁ = .next t₁ →
    ∃ t₂ emitted, step s₂ = .next t₂ ∧ t₁.SameButOut t₂ ∧
      t₁.out = s₁.out ++ emitted ∧ t₂.out = s₂.out ++ emitted ∧ emitted.length ≤ 1

/-- R14, R31: `out` is only appended to, by one register value, and only by PRN. -/
def Obligations.OnlyPrnWritesOut : Prop :=
  ∀ (i : Instr) (s t : State), exec i s = .next t →
    t.out = s.out ∨ ∃ (a : Byte) (A : RegNo), i = .prn a ∧ a.toNat = A.val ∧ t.out = s.out ++ [s.reg A]

/-- R26: only HLT writes HALTED, and FAULTED carries the pc of the faulting instruction. -/
def Obligations.StatusWriters : Prop :=
  ∀ (i : Instr) (s t : State), s.status = .running → exec i s = .next t →
    (t.status = .halted ↔ i = .hlt) ∧
    (t.status = .running ∨ t.status = .halted ∨ ∃ r, t.status = .faulted r s.pc)

/-- R26, R89: the codes on the `status` port. -/
def Obligations.StatusPortCodes : Prop :=
  ∀ s : State,
    (s.status = .running → s.statusPort = (0, none)) ∧
    (s.status = .halted → s.statusPort = (1, none)) ∧
    (∀ r q, s.status = .faulted r q → s.statusPort = (2, some (r, q))) ∧
    (∀ op, FaultReason.code (.invalidOpcode op) = 1) ∧ (∀ k v, FaultReason.code (.outOfBounds k v) = 2) ∧
    (∀ v, FaultReason.code (.arithOverflow v) = 3) ∧ ∀ k, FaultReason.code (.aluUnsupported k) = 4

/-- The invariant (canonical memory, R23, R92) holds after reset, for every parameter set. -/
def Obligations.ResetMeetsTheInvariant : Prop :=
  (∀ p : Params, (State.resetWith p).Inv) ∧ State.reset.Inv

/-- Every step keeps the invariant (canonical memory, R23, R92), and no step changes the parameters. -/
def Obligations.StepKeepsTheInvariant : Prop :=
  ∀ s t : State, s.Inv → step s = .next t → t.Inv ∧ t.params = s.params

/-! ## Reset, load, trace -/

/-- R105, R32: reset, in any state, puts every piece of state to its reset value. The parameters are no state of the spec and stay. -/
def Obligations.ResetState : Prop :=
  ∀ s : State,
    (∀ i : RegNo, i ≠ 7 → s.applyReset.reg i = 0) ∧ s.applyReset.reg 7 = 128 ∧
    s.applyReset.pc = s.params.entryPc ∧ (∀ f, s.applyReset.flag f = false) ∧
    (∀ a, s.applyReset.mem.read a = 0) ∧ s.applyReset.out = [] ∧ s.applyReset.status = .running ∧
    s.applyReset.params = s.params ∧ State.reset.pc = 0

/-- Rests on R106: the load of an image of at most 128 values of 0 to 255 writes it from address 0 and changes nothing else of the reset
state; any other image is refused. Three things are the model's choice: the load exists only together with reset, as `State.boot` (log
entry 9); the clause `s.mem.wf = true` says that the loaded memory has the model's canonical form (log entry 8); and the two causes of
a refused image have names, a length over 128 coming first (log entry 12). -/
def Obligations.LoadPlacesTheImage : Prop :=
  ∀ (p : Params) (image : List Nat), p.valid = true →
    (image.length ≤ 128 → (∀ v ∈ image, v ≤ 255) →
      ∃ s, State.boot p image = .ok s ∧ (∀ k, k < 128 → (s.mem.read k).toNat = image.getD k 0) ∧
        s.mem.wf = true ∧ s = { State.resetWith p with mem := s.mem }) ∧
    (128 < image.length → State.boot p image = .error .imageTooLong) ∧
    (image.length ≤ 128 → (∃ v ∈ image, 255 < v) → State.boot p image = .error .valueTooLarge)

/-- R102: what the trace shows, in any run state. -/
def Obligations.DebugTrace : Prop :=
  ∀ s : State, s.trace.pc = s.pc ∧ (∀ i : RegNo, s.trace.regs[i] = s.reg i) ∧
    s.trace.m0 = (if s.pc.toNat < 128 then some (s.mem.read s.pc.toNat) else none) ∧
    s.trace.m1 = (if s.pc.toNat + 1 < 128 then some (s.mem.read (s.pc.toNat + 1)) else none) ∧
    s.trace.m2 = (if s.pc.toNat + 2 < 128 then some (s.mem.read (s.pc.toNat + 2)) else none)

/-! ## Arithmetic -/

/-- R72: WRAP answers the remainder modulo 256 of any integer; FAULT answers the result itself or raises ArithOverflow. -/
def Obligations.ArithmeticPolicies : Prop :=
  (∀ v : Int, ∃ w, arith .wrap v = .ok w ∧ (w.toNat : Int) = v % 256) ∧
  (∀ v : Int, 0 ≤ v → v ≤ 255 → ∃ w, arith .fault v = .ok w ∧ (w.toNat : Int) = v) ∧
  ∀ v : Int, v < 0 ∨ 255 < v → arith .fault v = .error (.arithOverflow v)

/-- R74: the ALU defines ADD and SUB and fails on every other kind, and no instruction makes it fail. -/
def Obligations.AluInterface : Prop :=
  (∀ x y : Byte, alu .wrap .add x y = .ok (x + y) ∧ alu .wrap .sub x y = .ok (x - y)) ∧
  (∀ x y : Byte,
    (x.toNat + y.toNat ≤ 255 → alu .fault .add x y = .ok (x + y)) ∧
    (255 < x.toNat + y.toNat → alu .fault .add x y = .error (.arithOverflow (x.toNat + y.toNat))) ∧
    (y.toNat ≤ x.toNat → alu .fault .sub x y = .ok (x - y)) ∧
    (x.toNat < y.toNat → alu .fault .sub x y = .error (.arithOverflow (x.toNat - y.toNat)))) ∧
  (∀ policy name x y, alu policy (.other name) x y = .error (.aluUnsupported (.other name))) ∧
  ∀ (i : Instr) (s t : State) (kind : AluKind) (q : Byte), s.status = .running → exec i s = .next t →
    t.status ≠ .faulted (.aluUnsupported kind) q

/-! ## Two instructions together -/

/-- R80, R81: a PUSH and then a POP into any register but SP give back the pushed value and the SP, whenever SP is 1 to 128. -/
def Obligations.PushThenPop : Prop :=
  ∀ (s : State) (a b : Byte) (A B : RegNo), a.toNat = A.val → b.toNat = B.val → B ≠ 7 →
    1 ≤ (s.reg 7).toNat → (s.reg 7).toNat ≤ 128 →
    ∃ t u, exec (.push a) s = .next t ∧ exec (.pop b) t = .next u ∧
      u.reg B = (if A = 7 then s.reg 7 - 1 else s.reg A) ∧ u.reg 7 = s.reg 7 ∧
      (∀ i, i ≠ B → i ≠ 7 → u.reg i = s.reg i) ∧ ∀ f, u.flag f = s.flag f

/-- R83, R84: a RET in any later state whose SP and top of stack are those the CALL left resumes at p + 2 with the SP from before the
CALL, whenever SP was 1 to 128. -/
def Obligations.CallThenRet : Prop :=
  ∀ (s : State) (a : Byte) (A : RegNo), a.toNat = A.val → s.pc.toNat ≤ 126 →
    1 ≤ (s.reg 7).toNat → (s.reg 7).toNat ≤ 128 →
    ∃ t, exec (.call a) s = .next t ∧
      ∀ u : State, u.reg 7 = t.reg 7 → u.mem.read (t.reg 7).toNat = t.mem.read (t.reg 7).toNat →
        ∃ v, exec .ret u = .next v ∧ v.pc.toNat = s.pc.toNat + 2 ∧ v.reg 7 = s.reg 7

/-- R47, R110: a byte that PUSH stores over the next instruction's opcode is the opcode that the next step fetches. -/
def Obligations.StoredByteIsFetched : Prop :=
  ∀ (s : State) (a : Byte) (A : RegNo), a.toNat = A.val → A ≠ 7 →
    (s.reg 7).toNat = s.pc.toNat + 3 → (s.reg 7).toNat ≤ 128 →
    ∃ t w, exec (.push a) s = .next t ∧ fetch t = .ok w ∧ w.op = s.reg A
end

