-- ==== Sys2Proof/Laws/Decode.lean ====
section
/-! SUPPORT. The small lemmas of the opcode map and the decoder. -/

namespace Sys2Proof

theorem Opcode.mem_all (o : Opcode) : o ∈ Opcode.all := by
  cases o <;> decide

theorem Opcode.nodup_all : Opcode.all.Nodup := by
  decide

theorem distinctBytes_iff_nodup (l : List Byte) : distinctBytes l = true ↔ l.Nodup := by
  induction l with
  | nil => simp [distinctBytes]
  | cons x xs ih => simp [distinctBytes, ih]

/-- What the decoder selects has the byte it was given. -/
theorem decodeOpcode_sound {p : Params} {op : Byte} {o : Opcode} (h : decodeOpcode p op = some o) : o.byte p = op := by
  simpa using List.find?_some h

theorem decodeOpcode_eq_none {p : Params} {op : Byte} :
    decodeOpcode p op = none ↔ ∀ o : Opcode, o.byte p ≠ op := by
  simp only [decodeOpcode, List.find?_eq_none, beq_iff_eq]
  exact ⟨fun h o => h o o.mem_all, fun h o _ => h o⟩

/-- The legality of a parameter set as facts about the list of opcode bytes. -/
theorem Params.valid_iff_list (p : Params) :
    p.valid = true ↔ (Opcode.all.map (Opcode.byte p)).Nodup ∧ (0xFF : Byte) ∉ Opcode.all.map (Opcode.byte p) := by
  simp only [Params.valid, Bool.and_eq_true, distinctBytes_iff_nodup, Bool.not_eq_true', List.contains_eq_mem,
    decide_eq_false_iff_not]

@[simp] theorem Opcode.opcode_build (o : Opcode) (a b : Byte) : (o.build a b).opcode = o := by
  cases o <;> rfl

end Sys2Proof
end

