-- ==== Sys2Proof/Laws/Memory.lean ====
section
/-! SUPPORT. The laws of memory: a read after a write, and the canonical form is kept by every operation. -/

namespace Sys2Proof.Machine

@[simp] theorem Memory.read_nil (a : Nat) : Memory.read [] a = 0 := rfl

theorem Memory.read_erase (m : Memory) (a b : Nat) :
    (m.erase a).read b = if a = b then 0 else m.read b := by
  induction m with
  | nil => simp [Memory.erase, Memory.read]
  | cons c m ih =>
    obtain ⟨d, w⟩ := c
    simp only [Memory.erase, List.filter_cons, Memory.read] at ih ⊢
    by_cases hda : d = a
    · subst hda
      by_cases hdb : d = b
      · simp [hdb] at ih ⊢; exact ih
      · simpa [hdb] using ih
    · by_cases hdb : d = b
      · subst hdb
        simp [hda, Memory.read, Ne.symm hda]
      · simpa [hda, Memory.read, hdb] using ih

/-- No cell of the list has address `a`. -/
theorem Memory.erase_absent (m : Memory) (a : Nat) : ∀ c ∈ m.erase a, c.1 ≠ a := by
  intro c hc
  simpa [Memory.erase] using (List.mem_filter.mp hc).2

theorem Memory.read_insert (m : Memory) (a b : Nat) (v : Byte) (h : ∀ c ∈ m, c.1 ≠ a) :
    (m.insert a v).read b = if a = b then v else m.read b := by
  induction m with
  | nil => simp [Memory.insert, Memory.read]
  | cons c m ih =>
    obtain ⟨d, w⟩ := c
    have hda : d ≠ a := h (d, w) (by simp)
    have ih := ih fun c hc => h c (by simp [hc])
    by_cases had : a < d
    · simp [Memory.insert, had, Memory.read]
    · by_cases hdb : d = b
      · subst hdb
        simp [Memory.insert, had, Memory.read, Ne.symm hda]
      · simp [Memory.insert, had, Memory.read, hdb, ih]

/-- A read after a write: the value written at the place written, the old value everywhere else. -/
theorem Memory.read_write (m : Memory) (a b : Nat) (v : Byte) :
    (m.write a v).read b = if a = b then v else m.read b := by
  by_cases hv : v = 0
  · subst hv
    simp [Memory.write, Memory.read_erase]
  · simp only [Memory.write, hv, if_false, Memory.read_insert _ _ _ _ (Memory.erase_absent m a), Memory.read_erase]
    split <;> simp_all

@[simp] theorem Memory.read_write_self (m : Memory) (a : Nat) (v : Byte) : (m.write a v).read a = v := by
  simp [Memory.read_write]

theorem Memory.read_write_of_ne (m : Memory) {a b : Nat} (h : a ≠ b) (v : Byte) :
    (m.write a v).read b = m.read b := by
  simp [Memory.read_write, h]

/-- The form with a lower bound: the head is in range and the tail lies above it. -/
theorem Memory.wfFrom_cons {lo a : Nat} {v : Byte} {m : Memory} :
    Memory.wfFrom lo ((a, v) :: m) = true ↔
      lo ≤ a ∧ a < 128 ∧ v ≠ 0 ∧ Memory.wfFrom (a + 1) m = true := by
  simp [Memory.wfFrom, and_assoc]

theorem Memory.wfFrom_mono {lo lo' : Nat} {m : Memory} (h : lo' ≤ lo) (hm : m.wfFrom lo = true) :
    m.wfFrom lo' = true := by
  cases m with
  | nil => rfl
  | cons c m =>
    obtain ⟨ha, hm⟩ := Memory.wfFrom_cons.mp hm
    exact Memory.wfFrom_cons.mpr ⟨Nat.le_trans h ha, hm⟩

theorem Memory.wfFrom_erase {lo : Nat} {m : Memory} (a : Nat) (hm : m.wfFrom lo = true) :
    (m.erase a).wfFrom lo = true := by
  induction m generalizing lo with
  | nil => rfl
  | cons c m ih =>
    obtain ⟨d, w⟩ := c
    obtain ⟨hd, hlt, hw, hm⟩ := Memory.wfFrom_cons.mp hm
    by_cases hda : d = a
    · have : Memory.erase ((d, w) :: m) a = Memory.erase m a := by simp [Memory.erase, hda]
      rw [this]
      exact ih (Memory.wfFrom_mono (by omega) hm)
    · have : Memory.erase ((d, w) :: m) a = (d, w) :: Memory.erase m a := by simp [Memory.erase, hda]
      rw [this]
      exact Memory.wfFrom_cons.mpr ⟨hd, hlt, hw, ih hm⟩

theorem Memory.wfFrom_insert {lo a : Nat} {v : Byte} {m : Memory} (hm : m.wfFrom lo = true) (hlo : lo ≤ a)
    (ha : a < 128) (hv : v ≠ 0) (h : ∀ c ∈ m, c.1 ≠ a) : (m.insert a v).wfFrom lo = true := by
  induction m generalizing lo with
  | nil => exact Memory.wfFrom_cons.mpr ⟨hlo, ha, hv, rfl⟩
  | cons c m ih =>
    obtain ⟨d, w⟩ := c
    obtain ⟨hd, hlt, hw, hm⟩ := Memory.wfFrom_cons.mp hm
    have hda : d ≠ a := h (d, w) (by simp)
    unfold Memory.insert
    split
    · exact Memory.wfFrom_cons.mpr ⟨hlo, ha, hv, Memory.wfFrom_cons.mpr ⟨by omega, hlt, hw, hm⟩⟩
    · exact Memory.wfFrom_cons.mpr ⟨hd, hlt, hw, ih hm (by omega) fun c hc => h c (by simp [hc])⟩

/-- A write inside memory keeps the canonical form. -/
theorem Memory.wf_write {m : Memory} {a : Nat} (hm : m.wf = true) (ha : a < 128) (v : Byte) :
    (m.write a v).wf = true := by
  by_cases hv : v = 0
  · simpa [Memory.write, hv, Memory.wf] using Memory.wfFrom_erase a hm
  · simp only [Memory.write, hv, if_false, Memory.wf]
    exact Memory.wfFrom_insert (Memory.wfFrom_erase a hm) (Nat.zero_le a) ha hv (Memory.erase_absent m a)

/-- Placing bytes keeps the canonical form. -/
theorem Memory.wf_place {m : Memory} (hm : m.wf = true) (a : Nat) (vs : List Byte) :
    (m.place a vs).wf = true := by
  induction vs generalizing m a with
  | nil => exact hm
  | cons v vs ih =>
    unfold Memory.place
    split
    · exact ih (Memory.wf_write hm ‹_› v) (a + 1)
    · exact ih hm (a + 1)

/-- What placing bytes does: inside memory and the placed range the bytes, elsewhere the old values. -/
theorem Memory.read_place (m : Memory) (a b : Nat) (vs : List Byte) (hb : b < 128) :
    (m.place a vs).read b = if a ≤ b then (vs[b - a]?).getD (m.read b) else m.read b := by
  induction vs generalizing m a with
  | nil => simp [Memory.place]
  | cons v vs ih =>
    unfold Memory.place
    have hread : (if a < 128 then m.write a v else m).read b = if a = b then v else m.read b := by
      split
      · exact Memory.read_write m a b v
      · rw [if_neg (by omega)]
    rw [ih, hread]
    rcases Nat.lt_trichotomy a b with h | h | h
    · have h1 : b - a = (b - (a + 1)) + 1 := by omega
      rw [h1, List.getElem?_cons_succ, if_pos (by omega), if_neg (by omega), if_pos (by omega)]
    · subst h
      rw [if_neg (by omega)]
      simp
    · rw [if_neg (by omega), if_neg (by omega), if_neg (by omega)]

/-- A canonical memory lists nothing outside the 128 cells, so an address outside reads as 0. -/
theorem Memory.read_of_wfFrom_of_ge {lo : Nat} {m : Memory} (hm : m.wfFrom lo = true) {b : Nat} (hb : 128 ≤ b) :
    m.read b = 0 := by
  induction m generalizing lo with
  | nil => rfl
  | cons c m ih =>
    obtain ⟨d, w⟩ := c
    obtain ⟨-, hlt, -, hm⟩ := Memory.wfFrom_cons.mp hm
    have : d ≠ b := by omega
    simp [Memory.read, this, ih hm]

end Sys2Proof.Machine
end

