-- ==== Sys2Proof/Laws/State.lean ====
section
/-! SUPPORT. The small lemmas of the state: one per observer per update, so that no later proof unfolds a record update. -/

namespace Sys2Proof.Machine

variable (s : State)

theorem State.reg_setReg (i j : RegNo) (v : Byte) :
    (s.setReg i v).reg j = if i = j then v else s.reg j := by
  simp [State.setReg, State.reg, Vector.getElem_set, Fin.ext_iff]

@[simp] theorem State.reg_setReg_self (i : RegNo) (v : Byte) : (s.setReg i v).reg i = v := by
  simp [State.reg_setReg]

theorem State.reg_setReg_of_ne {i j : RegNo} (h : i ≠ j) (v : Byte) :
    (s.setReg i v).reg j = s.reg j := by
  simp [State.reg_setReg, h]

theorem State.flag_raiseFlag (i j : FlagNo) :
    (s.raiseFlag i).flag j = if i = j then true else s.flag j := by
  simp [State.raiseFlag, State.flag, Vector.getElem_set, Fin.ext_iff]

@[simp] theorem State.flag_raiseFlag_self (i : FlagNo) : (s.raiseFlag i).flag i = true := by
  simp [State.flag_raiseFlag]

theorem State.flag_raiseFlag_of_ne {i j : FlagNo} (h : i ≠ j) :
    (s.raiseFlag i).flag j = s.flag j := by
  simp [State.flag_raiseFlag, h]

@[simp] theorem State.sp_eq : s.sp = s.reg 7 := rfl

@[simp] theorem State.flag_setReg (i : RegNo) (v : Byte) (j : FlagNo) : (s.setReg i v).flag j = s.flag j := rfl
@[simp] theorem State.pc_setReg (i : RegNo) (v : Byte) : (s.setReg i v).pc = s.pc := rfl
@[simp] theorem State.mem_setReg (i : RegNo) (v : Byte) : (s.setReg i v).mem = s.mem := rfl
@[simp] theorem State.status_setReg (i : RegNo) (v : Byte) : (s.setReg i v).status = s.status := rfl
@[simp] theorem State.out_setReg (i : RegNo) (v : Byte) : (s.setReg i v).out = s.out := rfl
@[simp] theorem State.params_setReg (i : RegNo) (v : Byte) : (s.setReg i v).params = s.params := rfl

@[simp] theorem State.reg_raiseFlag (i : FlagNo) (j : RegNo) : (s.raiseFlag i).reg j = s.reg j := rfl
@[simp] theorem State.pc_raiseFlag (i : FlagNo) : (s.raiseFlag i).pc = s.pc := rfl
@[simp] theorem State.mem_raiseFlag (i : FlagNo) : (s.raiseFlag i).mem = s.mem := rfl
@[simp] theorem State.status_raiseFlag (i : FlagNo) : (s.raiseFlag i).status = s.status := rfl
@[simp] theorem State.out_raiseFlag (i : FlagNo) : (s.raiseFlag i).out = s.out := rfl
@[simp] theorem State.params_raiseFlag (i : FlagNo) : (s.raiseFlag i).params = s.params := rfl

@[simp] theorem State.reg_setPc (t : Byte) (j : RegNo) : (s.setPc t).reg j = s.reg j := rfl
@[simp] theorem State.flag_setPc (t : Byte) (j : FlagNo) : (s.setPc t).flag j = s.flag j := rfl
@[simp] theorem State.pc_setPc (t : Byte) : (s.setPc t).pc = t := rfl
@[simp] theorem State.mem_setPc (t : Byte) : (s.setPc t).mem = s.mem := rfl
@[simp] theorem State.status_setPc (t : Byte) : (s.setPc t).status = s.status := rfl
@[simp] theorem State.out_setPc (t : Byte) : (s.setPc t).out = s.out := rfl
@[simp] theorem State.params_setPc (t : Byte) : (s.setPc t).params = s.params := rfl

@[simp] theorem State.reg_advance (k : Nat) (j : RegNo) : (s.advance k).reg j = s.reg j := rfl
@[simp] theorem State.flag_advance (k : Nat) (j : FlagNo) : (s.advance k).flag j = s.flag j := rfl
@[simp] theorem State.pc_advance (k : Nat) : (s.advance k).pc = s.pcPlus k := rfl
@[simp] theorem State.mem_advance (k : Nat) : (s.advance k).mem = s.mem := rfl
@[simp] theorem State.status_advance (k : Nat) : (s.advance k).status = s.status := rfl
@[simp] theorem State.out_advance (k : Nat) : (s.advance k).out = s.out := rfl
@[simp] theorem State.params_advance (k : Nat) : (s.advance k).params = s.params := rfl

@[simp] theorem State.reg_emit (v : Byte) (j : RegNo) : (s.emit v).reg j = s.reg j := rfl
@[simp] theorem State.flag_emit (v : Byte) (j : FlagNo) : (s.emit v).flag j = s.flag j := rfl
@[simp] theorem State.pc_emit (v : Byte) : (s.emit v).pc = s.pc := rfl
@[simp] theorem State.mem_emit (v : Byte) : (s.emit v).mem = s.mem := rfl
@[simp] theorem State.status_emit (v : Byte) : (s.emit v).status = s.status := rfl
@[simp] theorem State.out_emit (v : Byte) : (s.emit v).out = s.out ++ [v] := rfl
@[simp] theorem State.params_emit (v : Byte) : (s.emit v).params = s.params := rfl

@[simp] theorem State.reg_store (a : Nat) (v : Byte) (j : RegNo) : (s.store a v).reg j = s.reg j := rfl
@[simp] theorem State.flag_store (a : Nat) (v : Byte) (j : FlagNo) : (s.store a v).flag j = s.flag j := rfl
@[simp] theorem State.pc_store (a : Nat) (v : Byte) : (s.store a v).pc = s.pc := rfl
@[simp] theorem State.mem_store (a : Nat) (v : Byte) : (s.store a v).mem = s.mem.write a v := rfl
@[simp] theorem State.status_store (a : Nat) (v : Byte) : (s.store a v).status = s.status := rfl
@[simp] theorem State.out_store (a : Nat) (v : Byte) : (s.store a v).out = s.out := rfl
@[simp] theorem State.params_store (a : Nat) (v : Byte) : (s.store a v).params = s.params := rfl

@[simp] theorem State.reg_halt (j : RegNo) : s.halt.reg j = s.reg j := rfl
@[simp] theorem State.flag_halt (j : FlagNo) : s.halt.flag j = s.flag j := rfl
@[simp] theorem State.pc_halt : s.halt.pc = s.pc := rfl
@[simp] theorem State.mem_halt : s.halt.mem = s.mem := rfl
@[simp] theorem State.status_halt : s.halt.status = .halted := rfl
@[simp] theorem State.out_halt : s.halt.out = s.out := rfl
@[simp] theorem State.params_halt : s.halt.params = s.params := rfl

@[simp] theorem State.reg_raise (r : FaultReason) (j : RegNo) : (s.raise r).reg j = s.reg j := rfl
@[simp] theorem State.flag_raise (r : FaultReason) (j : FlagNo) : (s.raise r).flag j = s.flag j := rfl
@[simp] theorem State.pc_raise (r : FaultReason) : (s.raise r).pc = s.pc := rfl
@[simp] theorem State.mem_raise (r : FaultReason) : (s.raise r).mem = s.mem := rfl
@[simp] theorem State.status_raise (r : FaultReason) : (s.raise r).status = .faulted r s.pc := rfl
@[simp] theorem State.out_raise (r : FaultReason) : (s.raise r).out = s.out := rfl
@[simp] theorem State.params_raise (r : FaultReason) : (s.raise r).params = s.params := rfl

/-- Two states that every observer tells alike are the same state. -/
theorem State.eq_of_observers {s t : State} (hr : ∀ i, s.reg i = t.reg i) (hf : ∀ i, s.flag i = t.flag i)
    (hpc : s.pc = t.pc) (hm : s.mem = t.mem) (hs : s.status = t.status) (ho : s.out = t.out)
    (hp : s.params = t.params) : s = t := by
  have hr' : s.regs = t.regs := Vector.ext fun i hi => hr ⟨i, hi⟩
  have hf' : s.flags = t.flags := Vector.ext fun i hi => hf ⟨i, hi⟩
  cases s; cases t; simp_all

end Sys2Proof.Machine
end

