-- ==== Sys2Proof/Laws/Ops.lean ====
section
/-! SUPPORT. One lemma per shared operation: everything it can answer. -/

namespace Sys2Proof.Machine

section Sequencing

variable {α β : Type} {x : Except FaultReason α} {f : α → Except FaultReason β}

@[simp] theorem bind_ok (a : α) : ((Except.ok a : Except FaultReason α) >>= f) = f a := rfl

@[simp] theorem bind_error (r : FaultReason) : ((Except.error r : Except FaultReason α) >>= f) = .error r := rfl

@[simp] theorem pure_eq_ok (a : α) : (pure a : Except FaultReason α) = .ok a := rfl

theorem bind_eq_ok {b : β} : (x >>= f) = .ok b ↔ ∃ a, x = .ok a ∧ f a = .ok b := by
  cases x <;> simp

theorem bind_eq_error {r : FaultReason} :
    (x >>= f) = .error r ↔ x = .error r ∨ ∃ a, x = .ok a ∧ f a = .error r := by
  cases x <;> simp

end Sequencing

@[simp] theorem commit_ok (s t : State) : commit s (.ok t) = .next t := rfl

@[simp] theorem commit_error (s : State) (r : FaultReason) : commit s (.error r) = .next (s.raise r) := rfl

/-- An instruction always answers a next state: its result, or the FAULTED form of the state before it. -/
theorem commit_eq_next {s t : State} {x : Except FaultReason State} :
    commit s x = .next t ↔ x = .ok t ∨ ∃ r, x = .error r ∧ t = s.raise r := by
  cases x <;> simp [eq_comm]

theorem regIndex_of_eq {k : Byte} {A : RegNo} (h : k.toNat = A.val) : regIndex k = .ok A := by
  simp [regIndex, h]

theorem regIndex_of_le {k : Byte} (h : 8 ≤ k.toNat) : regIndex k = .error (.outOfBounds .register k.toNat) := by
  simp [regIndex, show ¬ k.toNat < 8 from Nat.not_lt.mpr h]

theorem regIndex_eq_ok {k : Byte} {A : RegNo} : regIndex k = .ok A ↔ k.toNat = A.val := by
  refine ⟨fun h => ?_, regIndex_of_eq⟩
  unfold regIndex at h
  split at h
  · cases h; rfl
  · cases h

theorem regIndex_eq_error {k : Byte} {r : FaultReason} :
    regIndex k = .error r ↔ 8 ≤ k.toNat ∧ r = .outOfBounds .register k.toNat := by
  unfold regIndex
  split
  · simp; omega
  · simp [eq_comm]; omega

theorem arith_eq_ok {policy : ArithOverflow} {v : Int} {w : Byte} :
    arith policy v = .ok w ↔ (policy = .wrap ∨ 0 ≤ v ∧ v ≤ 255) ∧ w = BitVec.ofInt 8 v := by
  cases policy
  · simp [arith, eq_comm]
  · by_cases h : 0 ≤ v ∧ v ≤ 255 <;> simp [arith, h, eq_comm]

theorem arith_eq_error {policy : ArithOverflow} {v : Int} {r : FaultReason} :
    arith policy v = .error r ↔ policy = .fault ∧ ¬ (0 ≤ v ∧ v ≤ 255) ∧ r = .arithOverflow v := by
  cases policy
  · simp [arith]
  · by_cases h : 0 ≤ v ∧ v ≤ 255 <;> simp [arith, h, eq_comm]

theorem memRead_eq_ok {s : State} {a : Nat} {v : Byte} :
    memRead s a = .ok v ↔ a < 128 ∧ v = s.mem.read a := by
  unfold memRead
  split
  · simp_all [eq_comm]
  · simp; omega

theorem memRead_eq_error {s : State} {a : Nat} {r : FaultReason} :
    memRead s a = .error r ↔ 128 ≤ a ∧ r = .outOfBounds .memory a := by
  unfold memRead
  split
  · simp; omega
  · simp [eq_comm]; omega

theorem memWrite_eq_ok {s t : State} {a : Nat} {v : Byte} :
    memWrite s a v = .ok t ↔ a < 128 ∧ t = s.store a v := by
  unfold memWrite
  split
  · simp_all [eq_comm]
  · simp; omega

theorem memWrite_eq_error {s : State} {a : Nat} {v : Byte} {r : FaultReason} :
    memWrite s a v = .error r ↔ 128 ≤ a ∧ r = .outOfBounds .memory a := by
  unfold memWrite
  split
  · simp; omega
  · simp [eq_comm]; omega

theorem fetchByte_of_lt {m : Memory} {a : Nat} (h : a < 128) : fetchByte m a = some (m.read a) := by
  simp [fetchByte, h]

theorem fetchByte_of_ge {m : Memory} {a : Nat} (h : 128 ≤ a) : fetchByte m a = none := by
  simp [fetchByte, show ¬ a < 128 from Nat.not_lt.mpr h]

/-- Narrowing an exact result to a register is wrapping byte arithmetic. -/
theorem ofInt_pred (x : Byte) : BitVec.ofInt 8 ((x.toNat : Int) - 1) = x - 1 := by
  apply BitVec.eq_of_toNat_eq
  have := x.isLt
  simp [BitVec.toNat_ofInt, BitVec.toNat_sub]
  omega

theorem ofInt_succ (x : Byte) : BitVec.ofInt 8 ((x.toNat : Int) + 1) = x + 1 := by
  apply BitVec.eq_of_toNat_eq
  have := x.isLt
  simp [BitVec.toNat_ofInt, BitVec.toNat_add]
  omega

/-- The pre-decrement of SP: it fails only from 0, and only under FAULT. -/
theorem decSp_eq_ok {s t : State} :
    decSp s = .ok t ↔ (s.params.arithOverflow = .wrap ∨ 1 ≤ s.sp.toNat) ∧ t = s.setReg 7 (s.sp - 1) := by
  have := s.sp.isLt
  simp only [decSp, bind_eq_ok, arith_eq_ok, pure_eq_ok, Except.ok.injEq, ofInt_pred]
  constructor
  · rintro ⟨w, ⟨h, rfl⟩, rfl⟩
    exact ⟨h.imp_right fun h => by omega, rfl⟩
  · rintro ⟨h, rfl⟩
    exact ⟨_, ⟨h.imp_right fun h => by omega, rfl⟩, rfl⟩

theorem decSp_eq_error {s : State} {r : FaultReason} :
    decSp s = .error r ↔ s.params.arithOverflow = .fault ∧ s.sp.toNat = 0 ∧ r = .arithOverflow (-1) := by
  have := s.sp.isLt
  simp only [decSp, bind_eq_error, arith_eq_ok, arith_eq_error, pure_eq_ok, reduceCtorEq, and_false, exists_const,
    or_false]
  constructor
  · rintro ⟨hp, hv, rfl⟩
    have h0 : s.sp.toNat = 0 := by omega
    exact ⟨hp, h0, by rw [h0]; rfl⟩
  · rintro ⟨hp, h0, rfl⟩
    exact ⟨hp, by omega, by rw [h0]; rfl⟩

/-- The post-increment of SP: it fails only from 255, and only under FAULT. -/
theorem incSp_eq_ok {s t : State} :
    incSp s = .ok t ↔ (s.params.arithOverflow = .wrap ∨ s.sp.toNat ≤ 254) ∧ t = s.setReg 7 (s.sp + 1) := by
  have := s.sp.isLt
  simp only [incSp, bind_eq_ok, arith_eq_ok, pure_eq_ok, Except.ok.injEq, ofInt_succ]
  constructor
  · rintro ⟨w, ⟨h, rfl⟩, rfl⟩
    exact ⟨h.imp_right fun h => by omega, rfl⟩
  · rintro ⟨h, rfl⟩
    exact ⟨_, ⟨h.imp_right fun h => by omega, rfl⟩, rfl⟩

theorem incSp_eq_error {s : State} {r : FaultReason} :
    incSp s = .error r ↔ s.params.arithOverflow = .fault ∧ s.sp.toNat = 255 ∧ r = .arithOverflow 256 := by
  have := s.sp.isLt
  simp only [incSp, bind_eq_error, arith_eq_ok, arith_eq_error, pure_eq_ok, reduceCtorEq, and_false, exists_const,
    or_false]
  constructor
  · rintro ⟨hp, hv, rfl⟩
    have h0 : s.sp.toNat = 255 := by omega
    exact ⟨hp, h0, by rw [h0]; rfl⟩
  · rintro ⟨hp, h0, rfl⟩
    exact ⟨hp, by omega, by rw [h0]; rfl⟩

/-- Every flag a comparison can select is one of the three in use. -/
theorem compareFlag_cases (x y : Byte) :
    x.toNat < y.toNat ∧ compareFlag x y = 5 ∨ y.toNat < x.toNat ∧ compareFlag x y = 6 ∨
      x = y ∧ compareFlag x y = 7 := by
  unfold compareFlag
  split
  · exact .inl ⟨‹_›, rfl⟩
  · split
    · exact .inr (.inl ⟨‹_›, rfl⟩)
    · exact .inr (.inr ⟨BitVec.eq_of_toNat_eq (by omega), rfl⟩)

end Sys2Proof.Machine
end

