-- ==== Sys2Proof/Laws/Exec.lean ====
section
/-! SUPPORT. What each meaning can do, said once: it answers the FAULTED form of the state before it, or the one result stated
here. -/

namespace Sys2Proof.Machine

/-- The faults an instruction's own pseudocode can raise (stage 4 of R93): a register operand that names no register, a stack address
outside memory, or, under FAULT, a result outside 0 to 255. -/
def InstrFault (i : Instr) (s : State) (r : FaultReason) : Prop :=
  (∃ k : Byte, r = .outOfBounds .register k.toNat ∧ 8 ≤ k.toNat ∧ i.wf = false) ∨
    (∃ k : Byte, r = .outOfBounds .memory k.toNat ∧ 128 ≤ k.toNat) ∨
      ∃ v : Int, r = .arithOverflow v ∧ s.params.arithOverflow = .fault ∧ ¬ (0 ≤ v ∧ v ≤ 255)

section Faults

variable {i : Instr} {s s' : State} {r : FaultReason}

theorem InstrFault.of_regIndex {k : Byte} (h : regIndex k = .error r) (hw : namesRegister k = false → i.wf = false) :
    InstrFault i s r := by
  obtain ⟨hk, rfl⟩ := regIndex_eq_error.mp h
  exact .inl ⟨k, rfl, hk, hw (by simpa [namesRegister] using hk)⟩

theorem InstrFault.of_arith {v : Int} (h : arith s.params.arithOverflow v = .error r) : InstrFault i s r := by
  obtain ⟨hp, hv, rfl⟩ := arith_eq_error.mp h
  exact .inr (.inr ⟨v, rfl, hp, hv⟩)

theorem InstrFault.of_decSp (h : decSp s = .error r) : InstrFault i s r := by
  obtain ⟨hp, -, rfl⟩ := decSp_eq_error.mp h
  exact .inr (.inr ⟨_, rfl, hp, by omega⟩)

theorem InstrFault.of_incSp (hp : s'.params = s.params) (h : incSp s' = .error r) : InstrFault i s r := by
  obtain ⟨hf, -, rfl⟩ := incSp_eq_error.mp h
  exact .inr (.inr ⟨_, rfl, hp ▸ hf, by omega⟩)

theorem InstrFault.of_memRead {k : Byte} (h : memRead s' k.toNat = .error r) : InstrFault i s r := by
  obtain ⟨hk, rfl⟩ := memRead_eq_error.mp h
  exact .inr (.inl ⟨k, rfl, hk⟩)

theorem InstrFault.of_memWrite {k v : Byte} (h : memWrite s' k.toNat v = .error r) : InstrFault i s r := by
  obtain ⟨hk, rfl⟩ := memWrite_eq_error.mp h
  exact .inr (.inl ⟨k, rfl, hk⟩)

end Faults

variable {s t : State} {a b imm : Byte}

theorem execHlt_eq (s : State) : execHlt s = .next s.halt := rfl

theorem execLdi_cases (h : execLdi a imm s = .next t) :
    (∃ r, InstrFault (.ldi a imm) s r ∧ t = s.raise r) ∨ ∃ A : RegNo, a.toNat = A.val ∧ t = (s.setReg A imm).advance 3 := by
  simp only [execLdi, immediate, commit_eq_next, bind_eq_ok, regIndex_eq_ok, pure_eq_ok, Except.ok.injEq] at h
  obtain ⟨A, hA, rfl⟩ | ⟨r, hr, rfl⟩ := h
  · exact .inr ⟨A, hA, rfl⟩
  · simp only [bind_eq_error, reduceCtorEq, and_false, exists_false, or_false] at hr
    exact .inl ⟨r, InstrFault.of_regIndex hr fun h => by simp [Instr.wf, h], rfl⟩

theorem execAdd_cases (h : execAdd a b s = .next t) :
    (∃ r, InstrFault (.add a b) s r ∧ t = s.raise r) ∨ ∃ A B : RegNo, a.toNat = A.val ∧ b.toNat = B.val ∧ ∃ v,
      alu s.params.arithOverflow .add (s.reg A) (s.reg B) = .ok v ∧ t = (s.setReg A v).advance 3 := by
  simp only [execAdd, commit_eq_next, bind_eq_ok, regIndex_eq_ok, pure_eq_ok, Except.ok.injEq] at h
  obtain ⟨A, hA, B, hB, v, hv, rfl⟩ | ⟨r, hr, rfl⟩ := h
  · exact .inr ⟨A, B, hA, hB, v, hv, rfl⟩
  · simp only [bind_eq_error, reduceCtorEq, and_false, exists_false, or_false] at hr
    obtain hr | ⟨_, _, hr | ⟨_, _, hr⟩⟩ := hr
    · exact .inl ⟨r, InstrFault.of_regIndex hr fun h => by simp [Instr.wf, h], rfl⟩
    · exact .inl ⟨r, InstrFault.of_regIndex hr fun h => by simp [Instr.wf, h], rfl⟩
    · exact .inl ⟨r, InstrFault.of_arith hr, rfl⟩

theorem execMul_cases (h : execMul a b s = .next t) :
    (∃ r, InstrFault (.mul a b) s r ∧ t = s.raise r) ∨ ∃ A B : RegNo, a.toNat = A.val ∧ b.toNat = B.val ∧ ∃ v,
      arith s.params.arithOverflow (((s.reg A).toNat : Int) * (s.reg B).toNat) = .ok v ∧
        t = (s.setReg A v).advance 3 := by
  simp only [execMul, commit_eq_next, bind_eq_ok, regIndex_eq_ok, pure_eq_ok, Except.ok.injEq] at h
  obtain ⟨A, hA, B, hB, v, hv, rfl⟩ | ⟨r, hr, rfl⟩ := h
  · exact .inr ⟨A, B, hA, hB, v, hv, rfl⟩
  · simp only [bind_eq_error, reduceCtorEq, and_false, exists_false, or_false] at hr
    obtain hr | ⟨_, _, hr | ⟨_, _, hr⟩⟩ := hr
    · exact .inl ⟨r, InstrFault.of_regIndex hr fun h => by simp [Instr.wf, h], rfl⟩
    · exact .inl ⟨r, InstrFault.of_regIndex hr fun h => by simp [Instr.wf, h], rfl⟩
    · exact .inl ⟨r, InstrFault.of_arith hr, rfl⟩

theorem execPrn_cases (h : execPrn a s = .next t) :
    (∃ r, InstrFault (.prn a) s r ∧ t = s.raise r) ∨ ∃ A : RegNo, a.toNat = A.val ∧ t = (s.emit (s.reg A)).advance 2 := by
  simp only [execPrn, commit_eq_next, bind_eq_ok, regIndex_eq_ok, pure_eq_ok, Except.ok.injEq] at h
  obtain ⟨A, hA, rfl⟩ | ⟨r, hr, rfl⟩ := h
  · exact .inr ⟨A, hA, rfl⟩
  · simp only [bind_eq_error, reduceCtorEq, and_false, exists_false, or_false] at hr
    exact .inl ⟨r, InstrFault.of_regIndex hr fun h => by simp [Instr.wf, h], rfl⟩

theorem execPush_cases (h : execPush a s = .next t) :
    (∃ r, InstrFault (.push a) s r ∧ t = s.raise r) ∨ ∃ A : RegNo, a.toNat = A.val ∧ ∃ s₁,
      decSp s = .ok s₁ ∧ s₁.sp.toNat < 128 ∧ t = (s₁.store s₁.sp.toNat (s₁.reg A)).advance 2 := by
  simp only [execPush, commit_eq_next, bind_eq_ok, regIndex_eq_ok, memWrite_eq_ok, pure_eq_ok, Except.ok.injEq] at h
  obtain ⟨A, hA, s₁, h₁, s₂, ⟨hlt, rfl⟩, rfl⟩ | ⟨r, hr, rfl⟩ := h
  · exact .inr ⟨A, hA, s₁, h₁, hlt, rfl⟩
  · simp only [bind_eq_error, reduceCtorEq, and_false, exists_false, or_false] at hr
    obtain hr | ⟨_, _, hr | ⟨_, _, hr⟩⟩ := hr
    · exact .inl ⟨r, InstrFault.of_regIndex hr fun h => by simp [Instr.wf, h], rfl⟩
    · exact .inl ⟨r, InstrFault.of_decSp hr, rfl⟩
    · exact .inl ⟨r, InstrFault.of_memWrite hr, rfl⟩

theorem execPop_cases (h : execPop a s = .next t) :
    (∃ r, InstrFault (.pop a) s r ∧ t = s.raise r) ∨ ∃ A : RegNo, a.toNat = A.val ∧ s.sp.toNat < 128 ∧ ∃ s₁,
      incSp (s.setReg A (s.mem.read s.sp.toNat)) = .ok s₁ ∧ t = s₁.advance 2 := by
  simp only [execPop, commit_eq_next, bind_eq_ok, regIndex_eq_ok, memRead_eq_ok, pure_eq_ok, Except.ok.injEq] at h
  obtain ⟨A, hA, v, ⟨hlt, rfl⟩, s₁, h₁, rfl⟩ | ⟨r, hr, rfl⟩ := h
  · exact .inr ⟨A, hA, hlt, s₁, h₁, rfl⟩
  · simp only [bind_eq_error, reduceCtorEq, and_false, exists_false, or_false] at hr
    obtain hr | ⟨A, _, hr | ⟨v, _, hr⟩⟩ := hr
    · exact .inl ⟨r, InstrFault.of_regIndex hr fun h => by simp [Instr.wf, h], rfl⟩
    · exact .inl ⟨r, InstrFault.of_memRead hr, rfl⟩
    · exact .inl ⟨r, InstrFault.of_incSp (s' := s.setReg A v) rfl hr, rfl⟩

theorem execCall_cases (h : execCall a s = .next t) :
    (∃ r, InstrFault (.call a) s r ∧ t = s.raise r) ∨ ∃ A : RegNo, a.toNat = A.val ∧ ∃ s₁,
      decSp s = .ok s₁ ∧ s₁.sp.toNat < 128 ∧ t = (s₁.store s₁.sp.toNat (s.pcPlus 2)).setPc (s₁.reg A) := by
  simp only [execCall, commit_eq_next, bind_eq_ok, regIndex_eq_ok, memWrite_eq_ok, pure_eq_ok, Except.ok.injEq] at h
  obtain ⟨A, hA, s₁, h₁, s₂, ⟨hlt, rfl⟩, rfl⟩ | ⟨r, hr, rfl⟩ := h
  · exact .inr ⟨A, hA, s₁, h₁, hlt, rfl⟩
  · simp only [bind_eq_error, reduceCtorEq, and_false, exists_false, or_false] at hr
    obtain hr | ⟨_, _, hr | ⟨_, _, hr⟩⟩ := hr
    · exact .inl ⟨r, InstrFault.of_regIndex hr fun h => by simp [Instr.wf, h], rfl⟩
    · exact .inl ⟨r, InstrFault.of_decSp hr, rfl⟩
    · exact .inl ⟨r, InstrFault.of_memWrite hr, rfl⟩

theorem execRet_cases (h : execRet s = .next t) :
    (∃ r, InstrFault .ret s r ∧ t = s.raise r) ∨ s.sp.toNat < 128 ∧ ∃ s₁,
      incSp s = .ok s₁ ∧ t = s₁.setPc (s.mem.read s.sp.toNat) := by
  simp only [execRet, commit_eq_next, bind_eq_ok, memRead_eq_ok, pure_eq_ok, Except.ok.injEq] at h
  obtain ⟨v, ⟨hlt, rfl⟩, s₁, h₁, rfl⟩ | ⟨r, hr, rfl⟩ := h
  · exact .inr ⟨hlt, s₁, h₁, rfl⟩
  · simp only [bind_eq_error, reduceCtorEq, and_false, exists_false, or_false] at hr
    obtain hr | ⟨_, _, hr⟩ := hr
    · exact .inl ⟨r, InstrFault.of_memRead hr, rfl⟩
    · exact .inl ⟨r, InstrFault.of_incSp rfl hr, rfl⟩

theorem execCmp_cases (h : execCmp a b s = .next t) :
    (∃ r, InstrFault (.cmp a b) s r ∧ t = s.raise r) ∨ ∃ A B : RegNo, a.toNat = A.val ∧ b.toNat = B.val ∧
      t = (s.raiseFlag (compareFlag (s.reg A) (s.reg B))).advance 3 := by
  simp only [execCmp, commit_eq_next, bind_eq_ok, regIndex_eq_ok, pure_eq_ok, Except.ok.injEq] at h
  obtain ⟨A, hA, B, hB, rfl⟩ | ⟨r, hr, rfl⟩ := h
  · exact .inr ⟨A, B, hA, hB, rfl⟩
  · simp only [bind_eq_error, reduceCtorEq, and_false, exists_false, or_false] at hr
    obtain hr | ⟨_, _, hr⟩ := hr
    · exact .inl ⟨r, InstrFault.of_regIndex hr fun h => by simp [Instr.wf, h], rfl⟩
    · exact .inl ⟨r, InstrFault.of_regIndex hr fun h => by simp [Instr.wf, h], rfl⟩

theorem execJmp_cases (h : execJmp a s = .next t) :
    (∃ r, InstrFault (.jmp a) s r ∧ t = s.raise r) ∨ ∃ A : RegNo, a.toNat = A.val ∧ t = s.setPc (s.reg A) := by
  simp only [execJmp, commit_eq_next, bind_eq_ok, regIndex_eq_ok, pure_eq_ok, Except.ok.injEq] at h
  obtain ⟨A, hA, rfl⟩ | ⟨r, hr, rfl⟩ := h
  · exact .inr ⟨A, hA, rfl⟩
  · simp only [bind_eq_error, reduceCtorEq, and_false, exists_false, or_false] at hr
    exact .inl ⟨r, InstrFault.of_regIndex hr fun h => by simp [Instr.wf, h], rfl⟩

theorem execJeq_cases (h : execJeq a s = .next t) :
    (∃ r, InstrFault (.jeq a) s r ∧ t = s.raise r) ∨ s.flag 7 = false ∧ t = s.advance 2 ∨
      s.flag 7 = true ∧ ∃ A : RegNo, a.toNat = A.val ∧ t = s.setPc (s.reg A) := by
  unfold execJeq State.equalFlag at h
  split at h
  · simp only [commit_eq_next, bind_eq_ok, regIndex_eq_ok, pure_eq_ok, Except.ok.injEq] at h
    obtain ⟨A, hA, rfl⟩ | ⟨r, hr, rfl⟩ := h
    · exact .inr (.inr ⟨‹_›, A, hA, rfl⟩)
    · simp only [bind_eq_error, reduceCtorEq, and_false, exists_false, or_false] at hr
      exact .inl ⟨r, InstrFault.of_regIndex hr fun h => by simp [Instr.wf, h], rfl⟩
  · cases h
    exact .inr (.inl ⟨by simpa using ‹¬ s.flag 7 = true›, rfl⟩)

theorem execJne_cases (h : execJne a s = .next t) :
    (∃ r, InstrFault (.jne a) s r ∧ t = s.raise r) ∨ s.flag 7 = true ∧ t = s.advance 2 ∨
      s.flag 7 = false ∧ ∃ A : RegNo, a.toNat = A.val ∧ t = s.setPc (s.reg A) := by
  unfold execJne State.equalFlag at h
  split at h
  · cases h
    exact .inr (.inl ⟨‹_›, rfl⟩)
  · simp only [commit_eq_next, bind_eq_ok, regIndex_eq_ok, pure_eq_ok, Except.ok.injEq] at h
    obtain ⟨A, hA, rfl⟩ | ⟨r, hr, rfl⟩ := h
    · exact .inr (.inr ⟨by simpa using ‹¬ s.flag 7 = true›, A, hA, rfl⟩)
    · simp only [bind_eq_error, reduceCtorEq, and_false, exists_false, or_false] at hr
      exact .inl ⟨r, InstrFault.of_regIndex hr fun h => by simp [Instr.wf, h], rfl⟩

/-- What executing an instruction does to the status: a fault of its own pseudocode, HLT's HALTED, or nothing. -/
theorem exec_status_cases {i : Instr} (h : exec i s = .next t) :
    (∃ r, InstrFault i s r ∧ t = s.raise r) ∨ (i = .hlt ∧ t = s.halt) ∨ (i ≠ .hlt ∧ t.status = s.status) := by
  cases i with
  | hlt =>
    cases h
    exact .inr (.inl ⟨rfl, rfl⟩)
  | ldi a b => exact (execLdi_cases h).imp_right fun ⟨_, _, e⟩ => .inr (by simp [e])
  | add a b => exact (execAdd_cases h).imp_right fun ⟨_, _, _, _, _, _, e⟩ => .inr (by simp [e])
  | mul a b => exact (execMul_cases h).imp_right fun ⟨_, _, _, _, _, _, e⟩ => .inr (by simp [e])
  | prn a => exact (execPrn_cases h).imp_right fun ⟨_, _, e⟩ => .inr (by simp [e])
  | push a => exact (execPush_cases h).imp_right fun ⟨_, _, _, h₁, _, e⟩ => .inr (by simp [e, (decSp_eq_ok.mp h₁).2])
  | pop a => exact (execPop_cases h).imp_right fun ⟨_, _, _, _, h₁, e⟩ => .inr (by simp [e, (incSp_eq_ok.mp h₁).2])
  | call a => exact (execCall_cases h).imp_right fun ⟨_, _, _, h₁, _, e⟩ => .inr (by simp [e, (decSp_eq_ok.mp h₁).2])
  | ret => exact (execRet_cases h).imp_right fun ⟨_, _, h₁, e⟩ => .inr (by simp [e, (incSp_eq_ok.mp h₁).2])
  | cmp a b => exact (execCmp_cases h).imp_right fun ⟨_, _, _, _, e⟩ => .inr (by simp [e])
  | jmp a => exact (execJmp_cases h).imp_right fun ⟨_, _, e⟩ => .inr (by simp [e])
  | jeq a => exact (execJeq_cases h).imp_right fun h => .inr (by rcases h with ⟨-, e⟩ | ⟨-, _, -, e⟩ <;> simp [e])
  | jne a => exact (execJne_cases h).imp_right fun h => .inr (by rcases h with ⟨-, e⟩ | ⟨-, _, -, e⟩ <;> simp [e])

theorem fetch_of_lt (h : s.pc.toNat < 128) :
    fetch s = .ok ⟨s.mem.read s.pc.toNat, fetchByte s.mem (s.pc.toNat + 1), fetchByte s.mem (s.pc.toNat + 2)⟩ := by
  simp [fetch, h]

theorem fetch_of_ge (h : 128 ≤ s.pc.toNat) : fetch s = .error (.outOfBounds .fetch s.pc.toNat) := by
  simp [fetch, show ¬ s.pc.toNat < 128 from Nat.not_lt.mpr h]

/-- The step of a block that takes steps. -/
theorem step_of_running (hv : s.params.valid = true) (hs : s.status = .running) :
    (∀ r, fetchDecode s = .error r → step s = .next (s.raise r)) ∧
      ∀ i, fetchDecode s = .ok i → step s = exec i s := by
  refine ⟨fun r h => ?_, fun i h => ?_⟩ <;> simp [step, hv, hs, h]

/-- What a step that has a next state did: it raised a fault of stages 1 to 3, or executed the decoded instruction. -/
theorem step_cases (h : step s = .next t) :
    s.params.valid = true ∧ s.status = .running ∧
      ((∃ r, fetchDecode s = .error r ∧ t = s.raise r) ∨ ∃ i, fetchDecode s = .ok i ∧ exec i s = .next t) := by
  unfold step at h
  split at h
  · cases h
  · rename_i hv
    refine ⟨by simpa using hv, ?_⟩
    split at h
    · cases h
    · cases h
    · rename_i hs
      refine ⟨hs, ?_⟩
      split at h
      · rename_i r hr
        cases h
        exact .inl ⟨r, hr, rfl⟩
      · rename_i i hi
        exact .inr ⟨i, hi, h⟩

end Sys2Proof.Machine
end

