-- ==== Sys2Proof/Laws/PerInstr.lean ====
section
/-! SUPPORT. Statements about every instruction as syntax, one lemma per constructor. -/

namespace Sys2Proof.Laws.EncodedForm

/-- R50, R51: under every parameter set the encoding has 1 + n bytes, and its first byte is the instruction's opcode. -/
def Statement (i : Instr) : Prop :=
  ∀ p : Params, (encode p i).length = i.length ∧ (encode p i)[0]? = some (i.opcode.byte p)

theorem hlt : Statement .hlt := fun _ => ⟨rfl, rfl⟩

theorem ldi (a imm : Byte) : Statement (.ldi a imm) := fun _ => ⟨rfl, rfl⟩

theorem add (a b : Byte) : Statement (.add a b) := fun _ => ⟨rfl, rfl⟩

theorem mul (a b : Byte) : Statement (.mul a b) := fun _ => ⟨rfl, rfl⟩

theorem prn (a : Byte) : Statement (.prn a) := fun _ => ⟨rfl, rfl⟩

theorem push (a : Byte) : Statement (.push a) := fun _ => ⟨rfl, rfl⟩

theorem pop (a : Byte) : Statement (.pop a) := fun _ => ⟨rfl, rfl⟩

theorem call (a : Byte) : Statement (.call a) := fun _ => ⟨rfl, rfl⟩

theorem ret : Statement .ret := fun _ => ⟨rfl, rfl⟩

theorem cmp (a b : Byte) : Statement (.cmp a b) := fun _ => ⟨rfl, rfl⟩

theorem jmp (a : Byte) : Statement (.jmp a) := fun _ => ⟨rfl, rfl⟩

theorem jeq (a : Byte) : Statement (.jeq a) := fun _ => ⟨rfl, rfl⟩

theorem jne (a : Byte) : Statement (.jne a) := fun _ => ⟨rfl, rfl⟩

end Sys2Proof.Laws.EncodedForm
end

