-- ==== Sys2Proof/Tests/Slice0.lean ====
section
/-! SUPPORT. Small tests. Expected results come from 95_test_vectors.md (the vector is named), from R54's table, or from the rule cited.
Then one witness for every statement that has hypotheses. -/

namespace Sys2Proof.Tests

open Sys2Proof.Machine

/-- A RUNNING state with a pc, an SP and memory cells (addresses rising), the rest as after reset. -/
def at_ (pc sp : Byte) (cells : Memory) : State :=
  { (State.reset.setReg 7 sp).setPc pc with mem := cells }

/-- The state with two registers set. -/
def regs2 (x₀ x₁ : Byte) : State := (State.reset.setReg 0 x₀).setReg 1 x₁

/-- The default parameters with ARITH_OVERFLOW = FAULT. -/
def faultParams : Params := { Params.default with arithOverflow := .fault }

/-- The state under ARITH_OVERFLOW = FAULT. -/
def underFault (s : State) : State := { s with params := faultParams }

/-- A legal parameter set with other opcode values (RET is 0x00, which the model allows: log entry 13), and an illegal one (RET given
HLT's value). -/
def otherParams : Params := { Params.default with opcMul := 0xB2, opcRet := 0x00 }
def clashingParams : Params := { Params.default with opcRet := 0x01 }

/-- The computation answers this value; it answers this error. -/
def okIs {ε α : Type} [DecidableEq α] (x : Except ε α) (a : α) : Bool :=
  match x with
  | .ok b => decide (b = a)
  | .error _ => false
def errIs {ε α : Type} [DecidableEq ε] (x : Except ε α) (e : ε) : Bool :=
  match x with
  | .ok _ => false
  | .error e' => decide (e' = e)

/-- Observe the next state, if there is one. -/
def onNext (o : Host.Outcome State Fault Refusal) (f : State → Bool) : Bool :=
  match o with
  | .next t => f t
  | .fault _ => false
  | .refused _ => false

/-- The next state is the FAULTED one with this reason and pc. -/
def faultedAt (o : Host.Outcome State Fault Refusal) (r : FaultReason) (pc : Byte) : Bool :=
  onNext o fun t => t.status == .faulted r pc

/-! ## Well-formedness, parameters, decoding -/

/-- R52: a register index of 8 or more is not well formed; LDI's immediate is never checked. -/
theorem test_wf_refuses_operand_a :
    Instr.wf (.ldi 8 0) = false ∧ Instr.wf (.add 8 0) = false ∧ Instr.wf (.mul 8 0) = false ∧
    Instr.wf (.prn 8) = false ∧ Instr.wf (.push 8) = false ∧ Instr.wf (.pop 8) = false ∧
    Instr.wf (.call 8) = false ∧ Instr.wf (.cmp 8 0) = false ∧ Instr.wf (.jmp 8) = false ∧
    Instr.wf (.jeq 255) = false ∧ Instr.wf (.jne 8) = false := by decide

theorem test_wf_refuses_operand_b :
    Instr.wf (.add 7 8) = false ∧ Instr.wf (.mul 7 255) = false ∧ Instr.wf (.cmp 7 8) = false ∧
    Instr.wf (.ldi 7 255) = true ∧ Instr.wf (.add 7 7) = true := by decide

/-- R7: two equal opcode values, and 0xFF. -/
theorem test_params_legal :
    Params.default.valid = true ∧ otherParams.valid = true ∧ clashingParams.valid = false ∧
    Params.valid { Params.default with opcJmp := 0xFF } = false := by decide

theorem test_illegal_params_refused :
    (match step { State.reset with params := clashingParams } with
      | .refused r => r == .badParameters
      | _ => false) = true := by decide

/-- Bytes written out from R54: binary opcode, then operand bytes. LDI r0, 8; ADD r0, r1; MUL r0, r1 (41). -/
theorem test_decode_data_arith :
    okIs (decodeBytes Params.default [0b10000010, 0, 8, 9]) (.ldi 0 8, [9]) = true ∧
    okIs (decodeBytes Params.default [0b10100000, 0, 1]) (.add 0 1, []) = true ∧
    okIs (decodeBytes Params.default [0b10100010, 0, 1]) (.mul 0 1, []) = true := by decide

/-- HLT; PRN r0 (42). -/
theorem test_decode_output_halt :
    okIs (decodeBytes Params.default [0b00000001, 5]) (.hlt, [5]) = true ∧
    okIs (decodeBytes Params.default [0b01000111, 0]) (.prn 0, []) = true := by decide

/-- PUSH r7; POP r2 (43). -/
theorem test_decode_stack :
    okIs (decodeBytes Params.default [0b01000101, 7]) (.push 7, []) = true ∧
    okIs (decodeBytes Params.default [0b01000110, 2]) (.pop 2, []) = true := by decide

/-- CALL r1; RET; CMP r2, r3; JMP r3; JEQ with index 255; JNE r3 (44). -/
theorem test_decode_control :
    okIs (decodeBytes Params.default [0b01010000, 1]) (.call 1, []) = true ∧
    okIs (decodeBytes Params.default [0b00010001]) (.ret, []) = true ∧
    okIs (decodeBytes Params.default [0b10100111, 2, 3]) (.cmp 2 3, []) = true ∧
    okIs (decodeBytes Params.default [0b01010100, 3]) (.jmp 3, []) = true ∧
    okIs (decodeBytes Params.default [0b01010101, 255]) (.jeq 255, []) = true ∧
    okIs (decodeBytes Params.default [0b01010110, 3]) (.jne 3, []) = true := by decide

/-- R57, R65, R93: 0xA1 is no opcode here; a missing A is reported before a missing B. -/
theorem test_decode_refusals :
    errIs (decodeBytes Params.default [0xA1, 0, 1]) (.invalidOpcode 0xA1) = true ∧
    errIs (decodeBytes Params.default [0x82]) .missingA = true ∧
    errIs (decodeBytes Params.default [0x82, 0]) .missingB = true ∧
    errIs (decodeBytes Params.default []) .noOpcode = true := by decide

/-! ## The step: fetch and faults -/

/-- V-FD-1, V-FD-5, V-FD-7. -/
theorem test_step_fetch_faults :
    faultedAt (step (at_ 128 128 [])) (.outOfBounds .fetch 128) 128 = true ∧
    faultedAt (step (at_ 127 128 [(127, 0x47)])) (.outOfBounds .operand 128) 127 = true ∧
    faultedAt (step (at_ 126 128 [(126, 0x82)])) (.outOfBounds .operand 128) 126 = true := by decide

/-- V-FD-9 (decode before the operand check), V-RST-1 (the step from reset). -/
theorem test_step_invalid_opcode :
    faultedAt (step (at_ 127 128 [(127, 0xFF)])) (.invalidOpcode 0xFF) 127 = true ∧
    faultedAt (step State.reset) (.invalidOpcode 0x00) 0 = true := by decide

/-- The host's placing: LDI r0, 8 as the first instruction after reset. -/
theorem test_withFetchWord :
    onNext (step (State.reset.withFetchWord 24 0x080082)) (fun t => t.reg 0 == 8 && t.pc == 3) = true := by decide

/-! ## Instructions -/

/-- V-LDI-4; V-LDI-6. -/
theorem test_ldi_sp : onNext (exec (.ldi 7 0x0A) State.reset) (fun t => t.sp == 10 && t.pc == 3) = true := by decide
theorem test_ldi_bad_index : faultedAt (exec (.ldi 0xFF 1) State.reset) (.outOfBounds .register 255) 0 = true := by decide

/-- V-ADD-2 under both policies; V-ADD-9. -/
theorem test_add_overflow :
    onNext (exec (.add 0 1) (regs2 200 100)) (fun t => t.reg 0 == 44 && t.reg 1 == 100) = true ∧
    faultedAt (exec (.add 0 1) (underFault (regs2 200 100))) (.arithOverflow 300) 0 = true := by decide
theorem test_add_checks_a_first :
    faultedAt (exec (.add 0x0A 9) State.reset) (.outOfBounds .register 10) 0 = true := by decide

/-- V-MUL-5 under both policies; V-MUL-8. -/
theorem test_mul_overflow :
    onNext (exec (.mul 0 1) (regs2 255 255)) (fun t => t.reg 0 == 1) = true ∧
    faultedAt (exec (.mul 0 1) (underFault (regs2 255 255))) (.arithOverflow 65025) 0 = true := by decide
theorem test_mul_destination : onNext (exec (.mul 1 0) (regs2 7 6)) (fun t => t.reg 1 == 42 && t.reg 0 == 7) = true := by decide

/-- V-FD-3. -/
theorem test_hlt_at_127 :
    onNext (step (at_ 127 128 [(127, 0x01)])) (fun t => t.status == .halted && t.pc == 127) = true := by decide

/-- V-PRN-4 after an earlier value; V-PRN-5. -/
theorem test_prn_appends :
    onNext (exec (.prn 7) (State.reset.emit 9)) (fun t => t.out == [9, 128] && t.pc == 2) = true := by decide
theorem test_prn_bad_index :
    onNext (exec (.prn 8) State.reset) (fun t => t.out == [] && t.status == .faulted (.outOfBounds .register 8) 0) = true := by decide

/-- V-PUSH-3; V-PUSH-4 under both policies. -/
theorem test_push_sp : onNext (exec (.push 7) State.reset) (fun t => t.mem == [(127, 127)] && t.sp == 127) = true := by decide
theorem test_push_at_zero :
    onNext (exec (.push 0) (at_ 0 0 [])) (fun t => t.status == .faulted (.outOfBounds .memory 255) 0 && t.sp == 0) = true ∧
    faultedAt (exec (.push 0) (underFault (at_ 0 0 []))) (.arithOverflow (-1)) 0 = true := by decide

/-- V-POP-1; V-POP-4 under both policies. -/
theorem test_pop : onNext (exec (.pop 2) (at_ 0 127 [(127, 4)]))
    (fun t => t.reg 2 == 4 && t.sp == 128 && t.mem == [(127, 4)]) = true := by decide
theorem test_pop_sp_wraps :
    onNext (exec (.pop 7) (at_ 0 127 [(127, 255)])) (fun t => t.sp == 0) = true ∧
    faultedAt (exec (.pop 7) (underFault (at_ 0 127 [(127, 255)]))) (.arithOverflow 256) 0 = true := by decide

/-- V-CALL-3; V-CALL-2. -/
theorem test_call_sp :
    onNext (exec (.call 7) (at_ 20 100 [])) (fun t => t.sp == 99 && t.mem == [(99, 22)] && t.pc == 99) = true := by decide
theorem test_call_at_126 :
    onNext (exec (.call 1) (at_ 126 128 [])) (fun t => t.mem == [(127, 128)] && t.pc == 0) = true := by decide

/-- V-FD-4; V-RET-2. -/
theorem test_ret_at_127 :
    onNext (step (at_ 127 127 [(127, 0x11)])) (fun t => t.pc == 17 && t.sp == 128) = true := by decide
theorem test_ret_empty_stack : faultedAt (exec .ret (at_ 0 128 [])) (.outOfBounds .memory 128) 0 = true := by decide

/-- V-CMP-5; V-CMP-4. -/
theorem test_cmp_sticky :
    onNext (exec (.cmp 0 1) ((regs2 5 7).raiseFlag 7)) (fun t => t.flag 5 && !t.flag 6 && t.flag 7) = true := by decide
theorem test_cmp_unsigned :
    onNext (exec (.cmp 0 1) (regs2 0 255)) (fun t => t.flag 5 && !t.flag 6 && !t.flag 7 && t.pc == 3) = true := by decide

/-- V-JMP-3. -/
theorem test_jmp_unchecked : onNext (exec (.jmp 7) State.reset) (fun t => t.pc == 128 && t.status == .running) = true := by decide

/-- V-JEQ-3, V-JEQ-4; V-JEQ-5. -/
theorem test_jeq_not_taken :
    onNext (exec (.jeq 9) ((at_ 18 128 []).raiseFlag 5)) (fun t => t.pc == 20 && t.status == .running) = true := by decide
theorem test_jeq_taken :
    faultedAt (exec (.jeq 9) (State.reset.raiseFlag 7)) (.outOfBounds .register 9) 0 = true ∧
    onNext (exec (.jeq 7) (State.reset.raiseFlag 7)) (fun t => t.pc == 128) = true := by decide

/-- V-JNE-3; V-JNE-4. -/
theorem test_jne_taken_at_reset : onNext (exec (.jne 7) State.reset) (fun t => t.pc == 128) = true := by decide
theorem test_jne_not_taken :
    onNext (exec (.jne 9) (State.reset.raiseFlag 7)) (fun t => t.pc == 2 && t.status == .running) = true := by decide

/-- The ALU vectors of 2.3. -/
theorem test_alu :
    okIs (alu .wrap .sub 3 5) 254 = true ∧ errIs (alu .fault .sub 3 5) (.arithOverflow (-2)) = true ∧
    okIs (alu .wrap .add 250 10) 4 = true ∧ errIs (alu .fault .add 250 10) (.arithOverflow 260) = true ∧
    errIs (alu .wrap (.other "MUL") 2 3) (.aluUnsupported (.other "MUL")) = true := by decide

/-! ## Channels -/

/-- V-LD-1, V-TR-1 (the image of P1), V-LD-2 (the token 256). -/
theorem test_boot_and_trace :
    (match State.boot Params.default [0x82, 0, 8, 0x82, 1, 9, 0xA0, 0, 1, 0x47, 0, 0x01] with
      | .ok s => s.trace == ⟨0, some 0x82, some 0, some 8, #v[0, 0, 0, 0, 0, 0, 0, 128]⟩ && s.mem.wf
      | .error _ => false) = true ∧
    errIs (State.boot Params.default [256]) .valueTooLarge = true := by decide

/-- V-LD-2 (an image of 129 bytes). -/
theorem test_boot_too_long : State.boot Params.default (List.replicate 129 0) = .error .imageTooLong := by
  simp [State.boot, test_params_legal.1]

/-- V-TR-2; V-RST-2. -/
theorem test_trace_edge_and_reset :
    (at_ 127 128 [(127, 1)]).trace = ⟨127, some 1, none, none, #v[0, 0, 0, 0, 0, 0, 0, 128]⟩ ∧
    (((at_ 9 5 [(3, 4)]).emit 1).halt).applyReset = State.reset := by decide

/-- R14, R104: the host's lines and the kinds of end. -/
theorem test_host_view :
    ((State.reset.emit 17).emit 0).outLines = ["17", "0"] ∧ RunStatus.hostEnd .halted = some .exitZero ∧
    RunStatus.hostEnd (.faulted (.invalidOpcode 0xFF) 3) = some (.badInstruction 0xFF) := by decide

/-- R71: a HLT ends a run; a run whose fuel is spent has not ended; V-FD-10's kind of end. -/
theorem test_run_end :
    runEnd 1 (at_ 0 128 [(0, 0x01)]) = .normal ∧ runEnd 0 (at_ 0 128 [(0, 0x01)]) = .notEnded ∧
    runEnd 1 (at_ 5 128 []) = .faulted (.invalidOpcode 0x00) 5 := by decide

/-! ## Witnesses: a state and operands that meet the hypotheses of each statement, at the boundary values of each clause -/

theorem witness_DecodeOfEncode : Params.default.valid = true ∧ otherParams.valid = true := by decide

theorem witness_EncodeOfDecode : okIs (decodeBytes Params.default [0x55, 255, 7]) (.jeq 255, [7]) = true := by decide

theorem witness_OpcodeMatchIsExact : otherParams.valid = true ∧ decodeOpcode otherParams 0x00 = some .ret := by decide

theorem witness_IllegalParametersAreRefused :
    clashingParams.valid = false ∧ State.params { State.reset with params := clashingParams } = clashingParams := by decide

theorem witness_StepRunsDecodedInstruction :
    let s := at_ 126 128 [(126, 0x47)]
    s.ready ∧ s.pc.toNat < 128 ∧
      okIs (decode s.params
        ⟨s.mem.read s.pc.toNat, fetchByte s.mem (s.pc.toNat + 1), fetchByte s.mem (s.pc.toNat + 2)⟩) (.prn 0) = true := by
  decide

theorem witness_StepRunsStoredEncoding :
    let s := at_ 125 128 [(125, 0x82), (127, 7)]
    s.ready ∧ s.pc.toNat + Instr.length (.ldi 0 7) ≤ 128 ∧
      ∀ k, k < Instr.length (.ldi 0 7) → (encode s.params (.ldi 0 7))[k]? = some (s.mem.read (s.pc.toNat + k)) := by decide

theorem witness_FetchPastMemoryFaults :
    (at_ 128 128 []).ready ∧ 128 ≤ (at_ 128 128 []).pc.toNat ∧ 128 ≤ (at_ 255 128 []).pc.toNat := by decide

theorem witness_InvalidOpcodeFaults :
    let s := at_ 127 128 [(127, 0xFF)]
    s.ready ∧ s.pc.toNat < 128 ∧ decodeOpcode s.params (s.mem.read s.pc.toNat) = none ∧
      ∀ o ∈ Opcode.all, o.byte s.params ≠ s.mem.read s.pc.toNat := by decide

theorem witness_ConsumedOperandsMustExist :
    (at_ 127 128 [(127, 0x82)]).ready ∧ (at_ 127 128 [(127, 0x82)]).mem.read 127 = Opcode.byte Params.default .ldi ∧
    (at_ 126 128 [(126, 0xA0)]).mem.read 126 = Opcode.byte Params.default .add ∧
    (at_ 127 128 [(127, 0x01)]).mem.read 127 = Opcode.byte Params.default .hlt ∧
    127 + Opcode.hlt.operandCount < 128 ∧ 126 + Opcode.prn.operandCount < 128 := by decide

theorem witness_NoStepAfterTheEnd :
    State.reset.halt.params.valid = true ∧ State.reset.halt.status = .halted ∧
    (State.reset.raise (.invalidOpcode 0)).status = .faulted (.invalidOpcode 0) 0 := by decide

theorem witness_EveryRunningStepAnswers : State.reset.ready ∧ (underFault State.reset).ready := by decide

/-- Of FaultsArePreciseAndTerminal and RecordedReasonsAreTheListedOnes: one step for each reason a step can record. -/
theorem witness_RecordedReasons :
    faultedAt (step State.reset) (.invalidOpcode 0) 0 = true ∧
    faultedAt (step (at_ 255 128 [])) (.outOfBounds .fetch 255) 255 = true ∧
    faultedAt (step (at_ 126 128 [(126, 0xA7)])) (.outOfBounds .operand 128) 126 = true ∧
    faultedAt (step (at_ 0 128 [(0, 0x54), (1, 8)])) (.outOfBounds .register 8) 0 = true ∧
    faultedAt (step (at_ 0 128 [(0, 0x11)])) (.outOfBounds .memory 128) 0 = true ∧
    faultedAt (step (underFault (at_ 0 0 [(0, 0x45)]))) (.arithOverflow (-1)) 0 = true := by decide

theorem witness_WellFormedNeverNamesAMissingRegister :
    Instr.wf (.jeq 7) = true ∧ State.reset.status = .running ∧ onNext (exec (.jeq 7) State.reset) (fun _ => true) = true := by
  decide

/-- Of LDI, ADD, MUL and CMP: operands missing at 126 and 127, a bad A, a bad B, both good. -/
theorem witness_three_byte_instructions :
    (∀ op ∈ [(0x82 : Byte), 0xA0, 0xA2, 0xA7], ∀ p ∈ [126, 127],
      let s := at_ (BitVec.ofNat 8 p) 128 [(p, op)]
      s.ready ∧ s.mem.read s.pc.toNat = op ∧ 126 ≤ s.pc.toNat ∧ s.pc.toNat < 128) ∧
    8 ≤ (8 : Byte).toNat ∧ (7 : Byte).toNat < 8 ∧ (7 : Byte).toNat = (7 : RegNo).val ∧ (0 : Byte).toNat = (0 : RegNo).val := by
  decide

/-- Of ADD and MUL: the policies and a result of 256 (out of range), of 255 (in range). -/
theorem witness_AddSumsRegisters_MulMultipliesRegisters :
    (underFault (regs2 255 1)).params.arithOverflow = .fault ∧
    255 < ((underFault (regs2 255 1)).reg 0).toNat + ((underFault (regs2 255 1)).reg 1).toNat ∧
    ((underFault (regs2 254 1)).reg 0).toNat + ((underFault (regs2 254 1)).reg 1).toNat ≤ 255 ∧
    255 < ((underFault (regs2 16 16)).reg 0).toNat * ((underFault (regs2 16 16)).reg 1).toNat ∧
    ((underFault (regs2 15 17)).reg 0).toNat * ((underFault (regs2 15 17)).reg 1).toNat ≤ 255 ∧
    (regs2 255 1).params.arithOverflow = .wrap := by decide

theorem witness_HltHalts :
    let s := at_ 127 128 [(127, 0x01)]
    s.ready ∧ s.pc.toNat < 128 ∧ s.mem.read s.pc.toNat = 0x01 := by decide

/-- Of PRN, PUSH, POP, CALL, JMP, JEQ and JNE: operand A missing at 127 (a bad and a good index as above). -/
theorem witness_two_byte_instructions :
    ∀ op ∈ [(0x47 : Byte), 0x45, 0x46, 0x50, 0x54, 0x55, 0x56],
      let s := at_ 127 128 [(127, op)]
      s.ready ∧ s.mem.read s.pc.toNat = op ∧ s.pc.toNat = 127 := by decide

/-- Of PUSH and CALL: SP 0 under both policies, 129, 255, and 1 and 128. -/
theorem witness_PushStoresBelowSp_CallPushesAndJumps :
    (underFault (at_ 0 0 [])).params.arithOverflow = .fault ∧ ((underFault (at_ 0 0 [])).reg 7).toNat = 0 ∧
    (at_ 0 0 []).params.arithOverflow = .wrap ∧ ((at_ 0 0 []).reg 7).toNat = 0 ∧
    129 ≤ ((at_ 0 129 []).reg 7).toNat ∧ 129 ≤ ((at_ 0 255 []).reg 7).toNat ∧
    1 ≤ ((at_ 0 1 []).reg 7).toNat ∧ ((at_ 0 128 []).reg 7).toNat ≤ 128 := by decide

/-- Of POP and RET: SP 128 and 127; POP r7 with 255 on the stack under FAULT, and with 254. -/
theorem witness_PopLoadsFromSp_RetPopsThePc :
    128 ≤ ((at_ 0 128 []).reg 7).toNat ∧ ((at_ 0 127 []).reg 7).toNat < 128 ∧
    (let s := underFault (at_ 0 127 [(127, 255)])
     (s.reg 7).toNat < 128 ∧ s.params.arithOverflow = .fault ∧ s.mem.read (s.reg 7).toNat = 255) ∧
    (let s := underFault (at_ 0 127 [(127, 254)])
     (s.reg 7).toNat < 128 ∧ s.mem.read (s.reg 7).toNat ≠ 255) ∧
    (let s := at_ 127 127 [(127, 0x11)]
     s.ready ∧ s.pc.toNat < 128 ∧ s.mem.read s.pc.toNat = s.params.opcRet) := by decide

/-- Of CMP: less, greater, equal. -/
theorem witness_CmpSetsOneFlag :
    ((regs2 0 255).reg 0).toNat < ((regs2 0 255).reg 1).toNat ∧ ((regs2 1 0).reg 0).toNat > ((regs2 1 0).reg 1).toNat ∧
    (regs2 5 5).reg 0 = (regs2 5 5).reg 1 := by decide

/-- Of JEQ and JNE: both values of FL[7]. -/
theorem witness_JeqJumpsIfEqual_JneJumpsIfNotEqual :
    (State.reset.raiseFlag 7).flag 7 = true ∧ State.reset.flag 7 = false := by decide

/-- Of the four frames, OnlyPrnWritesOut and FlagsAreSticky: every instruction answers a next state, one that is no fault. -/
theorem witness_frames :
    ∀ i ∈ [Instr.hlt, .ldi 0 1, .add 0 1, .mul 0 1, .prn 0, .push 0, .pop 0, .call 0, .ret, .cmp 0 1, .jmp 0, .jeq 0, .jne 0],
      onNext (exec i (at_ 0 127 [])) (fun t => t.status == .running || t.status == .halted) = true := by decide

/-- Of PcPolicies and StatusWriters: also a taken JEQ and a JNE that is not taken. -/
theorem witness_PcPolicies_StatusWriters :
    (at_ 0 127 []).status = .running ∧ (at_ 0 127 []).pc.toNat < 128 ∧
    onNext (exec (.jeq 0) ((at_ 0 127 []).raiseFlag 7)) (fun t => t.status == .running) = true ∧
    onNext (exec (.jne 0) ((at_ 0 127 []).raiseFlag 7)) (fun t => t.status == .running) = true := by decide

theorem witness_FlagsAreSticky :
    let s := (at_ 0 128 [(0, 0xA7)]).raiseFlag 5
    s.flag 5 = true ∧ onNext (step s) (fun t => t.flag 5 && t.flag 7) = true := by decide

theorem witness_OnlyTheEqualFlagIsObserved :
    let s := at_ 0 128 [(0, 0x55)]
    let s' := s.raiseFlag 5
    (s.regs = s'.regs ∧ s.pc = s'.pc ∧ s.mem = s'.mem ∧ s.status = s'.status ∧ s.out = s'.out ∧ s.params = s'.params) ∧
      s.flag 7 = s'.flag 7 ∧ s.flag 5 ≠ s'.flag 5 ∧ onNext (step s) (fun _ => true) = true := by decide

theorem witness_OutputIsNeverRead :
    let s := at_ 0 128 [(0, 0x47), (1, 7)]
    let s' := s.emit 9
    (s.regs = s'.regs ∧ s.pc = s'.pc ∧ s.flags = s'.flags ∧ s.mem = s'.mem ∧ s.status = s'.status ∧ s.params = s'.params) ∧
      s.out ≠ s'.out ∧ onNext (step s) (fun _ => true) = true := by decide

theorem witness_StatusPortCodes :
    State.reset.status = .running ∧ State.reset.halt.status = .halted ∧
    (State.reset.raise (.arithOverflow 256)).status = .faulted (.arithOverflow 256) 0 := by decide

theorem witness_StepKeepsTheInvariant :
    (at_ 0 128 [(0, 0x45), (1, 7)]).Inv ∧
      onNext (step (at_ 0 128 [(0, 0x45), (1, 7)])) (fun t => t.mem == [(0, 0x45), (1, 7), (127, 127)]) = true := by
  refine ⟨⟨by decide, by decide, fun r q h => ?_⟩, by decide⟩
  cases h

theorem witness_LoadPlacesTheImage :
    (List.replicate 128 255).length ≤ 128 ∧ (∀ v ∈ List.replicate 128 255, v ≤ 255) ∧
    128 < (List.replicate 129 0).length ∧ ([256] : List Nat).length ≤ 128 ∧ (∃ v ∈ [256], 255 < v) := by
  simp

/-- Of ArithmeticPolicies and AluInterface: the edges of 0 to 255, and an instruction that answers a next state. -/
theorem witness_ArithmeticPolicies_AluInterface :
    (0 : Int) ≤ 255 ∧ ((-1 : Int) < 0 ∨ (255 : Int) < -1) ∧ ((256 : Int) < 0 ∨ (255 : Int) < 256) ∧
    (255 : Byte).toNat + (0 : Byte).toNat ≤ 255 ∧ 255 < (255 : Byte).toNat + (1 : Byte).toNat ∧
    (5 : Byte).toNat ≤ (5 : Byte).toNat ∧ (0 : Byte).toNat < (1 : Byte).toNat ∧
    State.reset.status = .running ∧ onNext (exec (.add 0 1) State.reset) (fun _ => true) = true := by decide

/-- Of PushThenPop and CallThenRet: SP 1 and 128, p 126, and a later state with the SP and the top of stack that the CALL left. -/
theorem witness_PushThenPop_CallThenRet :
    1 ≤ ((at_ 126 1 []).reg 7).toNat ∧ ((at_ 126 128 []).reg 7).toNat ≤ 128 ∧ (at_ 126 128 []).pc.toNat ≤ 126 ∧
    (1 : RegNo) ≠ 7 ∧
    onNext (exec (.call 1) (at_ 126 128 [])) (fun t =>
      (at_ 40 127 [(127, 128)]).reg 7 == t.reg 7 && (at_ 40 127 [(127, 128)]).mem.read 127 == t.mem.read 127) = true := by
  decide

theorem witness_StoredByteIsFetched :
    let s := at_ 125 128 []
    (s.reg 7).toNat = s.pc.toNat + 3 ∧ (s.reg 7).toNat ≤ 128 ∧ (0 : RegNo) ≠ 7 := by decide

end Sys2Proof.Tests
end

