-- ==== Sys2Proof/Proofs/Scope.lean ====
section
/-! SUPPORT. The proofs of the statements that rest on 00_scope.md: which parameter sets are legal and what becomes of the others, and
which instruction writes the output. -/

namespace Sys2Proof

/-- R7's two constraints, as facts about the opcodes themselves. -/
theorem Params.valid_iff (p : Params) :
    p.valid = true ↔ (∀ o o' : Opcode, o.byte p = o'.byte p → o = o') ∧ ∀ o : Opcode, o.byte p ≠ 0xFF := by
  have hdistinct : (Opcode.all.map (Opcode.byte p)).Nodup ↔ ∀ o o' : Opcode, o.byte p = o'.byte p → o = o' := by
    simp [List.nodup_map_iff_inj_on Opcode.nodup_all, Opcode.mem_all]
  have hnoFF : (0xFF : Byte) ∉ Opcode.all.map (Opcode.byte p) ↔ ∀ o : Opcode, o.byte p ≠ 0xFF := by
    simp [Opcode.mem_all]
  rw [p.valid_iff_list, hdistinct, hnoFF]

end Sys2Proof

namespace Sys2Proof.Machine

variable {s t : State}

theorem step_of_invalid (h : s.params.valid = false) : step s = .refused .badParameters := by
  simp [step, h]

theorem boot_of_invalid {p : Params} (h : p.valid = false) (image : List Nat) :
    State.boot p image = .error .badParameters := by
  simp [State.boot, h]

theorem out_of_decSp (h : decSp s = .ok t) : t.out = s.out := by
  obtain ⟨-, rfl⟩ := decSp_eq_ok.mp h
  rfl

theorem out_of_incSp (h : incSp s = .ok t) : t.out = s.out := by
  obtain ⟨-, rfl⟩ := incSp_eq_ok.mp h
  rfl

/-- A PRN that answers emitted its register, or faulted and emitted nothing. -/
theorem execPrn_out {a : Byte} (h : execPrn a s = .next t) :
    t.out = s.out ∨ ∃ A : RegNo, a.toNat = A.val ∧ t.out = s.out ++ [s.reg A] := by
  obtain ⟨r, -, rfl⟩ | ⟨A, hA, rfl⟩ := execPrn_cases h
  · exact .inl rfl
  · exact .inr ⟨A, hA, rfl⟩

/-- Every instruction but PRN keeps the output: a raised fault keeps it, and so does each result of the meaning. -/
theorem out_of_exec_of_ne_prn {i : Instr} (hi : ∀ a, i ≠ .prn a) (h : exec i s = .next t) : t.out = s.out := by
  cases i with
  | hlt => cases h; rfl
  | ldi a imm => obtain ⟨r, -, rfl⟩ | ⟨A, -, rfl⟩ := execLdi_cases h <;> rfl
  | add a b => obtain ⟨r, -, rfl⟩ | ⟨A, B, -, -, v, -, rfl⟩ := execAdd_cases h <;> rfl
  | mul a b => obtain ⟨r, -, rfl⟩ | ⟨A, B, -, -, v, -, rfl⟩ := execMul_cases h <;> rfl
  | prn a => exact absurd rfl (hi a)
  | push a =>
    obtain ⟨r, -, rfl⟩ | ⟨A, -, s₁, h₁, -, rfl⟩ := execPush_cases h
    · rfl
    · simp [out_of_decSp h₁]
  | pop a =>
    obtain ⟨r, -, rfl⟩ | ⟨A, -, -, s₁, h₁, rfl⟩ := execPop_cases h
    · rfl
    · simp [out_of_incSp h₁]
  | call a =>
    obtain ⟨r, -, rfl⟩ | ⟨A, -, s₁, h₁, -, rfl⟩ := execCall_cases h
    · rfl
    · simp [out_of_decSp h₁]
  | ret =>
    obtain ⟨r, -, rfl⟩ | ⟨-, s₁, h₁, rfl⟩ := execRet_cases h
    · rfl
    · simp [out_of_incSp h₁]
  | cmp a b => obtain ⟨r, -, rfl⟩ | ⟨A, B, -, -, rfl⟩ := execCmp_cases h <;> rfl
  | jmp a => obtain ⟨r, -, rfl⟩ | ⟨A, -, rfl⟩ := execJmp_cases h <;> rfl
  | jeq a => obtain ⟨r, -, rfl⟩ | ⟨-, rfl⟩ | ⟨-, A, -, rfl⟩ := execJeq_cases h <;> rfl
  | jne a => obtain ⟨r, -, rfl⟩ | ⟨-, rfl⟩ | ⟨-, A, -, rfl⟩ := execJne_cases h <;> rfl

end Sys2Proof.Machine

open Sys2Proof Sys2Proof.Machine

/-- Settles O6: legality is R7's two constraints on the opcodes, and the step and the load both test it first. -/
theorem illegalParametersAreRefused : Obligations.IllegalParametersAreRefused :=
  ⟨Params.valid_iff, fun _ h => step_of_invalid h, fun _ image h => boot_of_invalid h image⟩

/-- Settles O38, by whether the instruction is a PRN. -/
theorem onlyPrnWritesOut : Obligations.OnlyPrnWritesOut := by
  intro i s t h
  by_cases hprn : ∃ a, i = .prn a
  · obtain ⟨a, rfl⟩ := hprn
    exact (execPrn_out h).imp_right fun ⟨A, hA, hout⟩ => ⟨a, A, rfl, hA, hout⟩
  · exact .inl (out_of_exec_of_ne_prn (not_exists.mp hprn) h)

end

section
/-! SUPPORT. The proofs of the statements that rest on 10_state.md: what a step reads of the state, what it writes, and what every
step keeps. -/

namespace Sys2Proof.Machine

variable {s t s' : State}

/-! ## What a step reads: a relation that its reads and updates respect is respected by the step -/

section Together

variable {α β α' β' : Type} {P : α → α' → Prop} {Q : β → β' → Prop}

/-- Two computations raise the same fault, or answer related results. -/
inductive SameAnswer (P : α → α' → Prop) : Except FaultReason α → Except FaultReason α' → Prop where
  | ok {a : α} {a' : α'} : P a a' → SameAnswer P (.ok a) (.ok a')
  | error (r : FaultReason) : SameAnswer P (.error r) (.error r)

theorem SameAnswer.bind {x : Except FaultReason α} {y : Except FaultReason α'} {f : α → Except FaultReason β}
    {g : α' → Except FaultReason β'} (hxy : SameAnswer P x y) (hfg : ∀ a a', P a a' → SameAnswer Q (f a) (g a')) :
    SameAnswer Q (x >>= f) (y >>= g) := by
  cases hxy with
  | ok h => exact hfg _ _ h
  | error r => exact .error r

theorem SameAnswer.bind_same {x : Except FaultReason α} {f : α → Except FaultReason β} {g : α → Except FaultReason β'}
    (hfg : ∀ a, SameAnswer Q (f a) (g a)) : SameAnswer Q (x >>= f) (x >>= g) := by
  cases x with
  | ok a => exact hfg a
  | error r => exact .error r

end Together

/-- Related states agree on all that the meanings read (every register, the pc, FL[7], memory, the status, the parameters), and each
update of the state, made to both, keeps them related. -/
structure IsCongruence (R : State → State → Prop) : Prop where
  reg {s t : State} : R s t → ∀ i, s.reg i = t.reg i
  pc {s t : State} : R s t → s.pc = t.pc
  equalFlag {s t : State} : R s t → s.equalFlag = t.equalFlag
  mem {s t : State} : R s t → s.mem = t.mem
  status {s t : State} : R s t → s.status = t.status
  params {s t : State} : R s t → s.params = t.params
  setReg {s t : State} : R s t → ∀ i v, R (s.setReg i v) (t.setReg i v)
  raiseFlag {s t : State} : R s t → ∀ i, R (s.raiseFlag i) (t.raiseFlag i)
  setPc {s t : State} : R s t → ∀ p, R (s.setPc p) (t.setPc p)
  store {s t : State} : R s t → ∀ a v, R (s.store a v) (t.store a v)
  emit {s t : State} : R s t → ∀ v, R (s.emit v) (t.emit v)
  halt {s t : State} : R s t → R s.halt t.halt
  raise {s t : State} : R s t → ∀ r, R (s.raise r) (t.raise r)

namespace IsCongruence

variable {R : State → State → Prop} (hR : IsCongruence R) (h : R s t)
include hR h

theorem sp : s.sp = t.sp := hR.reg h 7

theorem pcPlus (k : Nat) : s.pcPlus k = t.pcPlus k := by
  simp only [State.pcPlus, hR.pc h]

theorem advance (k : Nat) : R (s.advance k) (t.advance k) := by
  simpa only [State.advance, hR.pcPlus h k] using hR.setPc h (t.pcPlus k)

theorem memRead (a : Nat) : memRead s a = memRead t a := by
  simp only [Machine.memRead, hR.mem h]

theorem memWrite (a : Nat) (v : Byte) : SameAnswer R (memWrite s a v) (memWrite t a v) := by
  unfold Machine.memWrite
  split
  · exact .ok (hR.store h a v)
  · exact .error _

theorem decSp : SameAnswer R (decSp s) (decSp t) := by
  unfold Machine.decSp
  rw [hR.params h, hR.sp h]
  exact .bind_same fun v => .ok (hR.setReg h 7 v)

theorem incSp : SameAnswer R (incSp s) (incSp t) := by
  unfold Machine.incSp
  rw [hR.params h, hR.sp h]
  exact .bind_same fun v => .ok (hR.setReg h 7 v)

/-- A computed jump, the end of a CALL, JMP and taken branch. -/
theorem jump (A : RegNo) : SameAnswer R (pure (s.setPc (s.reg A))) (pure (t.setPc (t.reg A))) := by
  rw [hR.reg h A]
  exact .ok (hR.setPc h _)

/-- Committing the same answer to related states: both take the result, or both the FAULTED form of the state before. -/
theorem commit {x y : Except FaultReason State} (hxy : SameAnswer R x y) (hs : commit s x = .next s') :
    ∃ t', commit t y = .next t' ∧ R s' t' := by
  cases hxy with
  | ok hab => cases hs; exact ⟨_, rfl, hab⟩
  | error r => cases hs; exact ⟨_, rfl, hR.raise h r⟩

/-- Every instruction, executed in related states, answers related states. -/
theorem exec {i : Instr} (hs : exec i s = .next s') : ∃ t', exec i t = .next t' ∧ R s' t' := by
  cases i with
  | hlt => exact hR.commit h (.ok (hR.halt h)) hs
  | ldi a imm => exact hR.commit h (.bind_same fun A => .ok (hR.advance (hR.setReg h A _) 3)) hs
  | add a b =>
    refine hR.commit h (.bind_same fun A => .bind_same fun B => ?_) hs
    rw [hR.params h, hR.reg h A, hR.reg h B]
    exact .bind_same fun v => .ok (hR.advance (hR.setReg h A v) 3)
  | mul a b =>
    refine hR.commit h (.bind_same fun A => .bind_same fun B => ?_) hs
    rw [hR.params h, hR.reg h A, hR.reg h B]
    exact .bind_same fun v => .ok (hR.advance (hR.setReg h A v) 3)
  | prn a =>
    refine hR.commit h (.bind_same fun A => ?_) hs
    rw [hR.reg h A]
    exact .ok (hR.advance (hR.emit h _) 2)
  | push a =>
    refine hR.commit h (.bind_same fun A => (hR.decSp h).bind fun s₁ t₁ h₁ => ?_) hs
    rw [hR.sp h₁, hR.reg h₁ A]
    exact (hR.memWrite h₁ _ _).bind fun s₂ t₂ h₂ => .ok (hR.advance h₂ 2)
  | pop a =>
    refine hR.commit h (.bind_same fun A => ?_) hs
    rw [hR.sp h, hR.memRead h]
    exact .bind_same fun v => (hR.incSp (hR.setReg h A v)).bind fun s₁ t₁ h₁ => .ok (hR.advance h₁ 2)
  | call a =>
    refine hR.commit h (.bind_same fun A => (hR.decSp h).bind fun s₁ t₁ h₁ => ?_) hs
    rw [hR.sp h₁, hR.pcPlus h 2]
    exact (hR.memWrite h₁ _ _).bind fun s₂ t₂ h₂ => hR.jump h₂ A
  | ret =>
    refine hR.commit h ?_ hs
    rw [hR.sp h, hR.memRead h]
    exact .bind_same fun v => (hR.incSp h).bind fun s₁ t₁ h₁ => .ok (hR.setPc h₁ v)
  | cmp a b =>
    refine hR.commit h (.bind_same fun A => .bind_same fun B => ?_) hs
    rw [hR.reg h A, hR.reg h B]
    exact .ok (hR.advance (hR.raiseFlag h _) 3)
  | jmp a => exact hR.commit h (.bind_same fun A => hR.jump h A) hs
  | jeq a =>
    refine hR.commit h ?_ hs
    rw [hR.equalFlag h]
    split
    · exact .bind_same fun A => hR.jump h A
    · exact .ok (hR.advance h 2)
  | jne a =>
    refine hR.commit h ?_ hs
    rw [hR.equalFlag h]
    split
    · exact .ok (hR.advance h 2)
    · exact .bind_same fun A => hR.jump h A

theorem fetchDecode : fetchDecode s = fetchDecode t := by
  simp only [Machine.fetchDecode, fetch, hR.pc h, hR.mem h, hR.params h]

/-- A congruence is a simulation: if one of two related states steps, so does the other, to a related state. -/
theorem step (hs : step s = .next s') : ∃ t', step t = .next t' ∧ R s' t' := by
  obtain ⟨hvalid, hrun, hstage⟩ := step_cases hs
  obtain ⟨onFault, onInstr⟩ := step_of_running (hR.params h ▸ hvalid) (hR.status h ▸ hrun)
  obtain ⟨r, hr, rfl⟩ | ⟨i, hi, hexec⟩ := hstage
  · exact ⟨_, onFault r (hR.fetchDecode h ▸ hr), hR.raise h r⟩
  · rw [onInstr i (hR.fetchDecode h ▸ hi)]
    exact hR.exec h hexec

end IsCongruence

/-- The two states differ at most in the flags other than FL[7]. -/
def SameButHiddenFlags (s t : State) : Prop := s.SameButFlags t ∧ s.flag 7 = t.flag 7

/-- Equal in all but the hidden flags, two states are equal in all that is read; a flag raised in both is raised in both. -/
theorem isCongruence_sameButHiddenFlags : IsCongruence SameButHiddenFlags where
  reg := fun ⟨⟨hregs, _⟩, _⟩ i => by simp only [State.reg, hregs]
  pc := fun ⟨⟨_, hpc, _⟩, _⟩ => hpc
  equalFlag := fun ⟨_, hE⟩ => hE
  mem := fun ⟨⟨_, _, hmem, _⟩, _⟩ => hmem
  status := fun ⟨⟨_, _, _, hstatus, _⟩, _⟩ => hstatus
  params := fun ⟨⟨_, _, _, _, _, hparams⟩, _⟩ => hparams
  setReg := fun ⟨⟨hregs, hrest⟩, hE⟩ i v => ⟨⟨by simp only [State.setReg, hregs], hrest⟩, hE⟩
  raiseFlag := fun ⟨hsame, hE⟩ i => ⟨hsame, by simp only [State.flag_raiseFlag, hE]⟩
  setPc := fun ⟨⟨hregs, _, hrest⟩, hE⟩ _ => ⟨⟨hregs, rfl, hrest⟩, hE⟩
  store := fun ⟨⟨hregs, hpc, hmem, hrest⟩, hE⟩ a v => ⟨⟨hregs, hpc, by simp only [State.mem_store, hmem], hrest⟩, hE⟩
  emit := fun ⟨⟨hregs, hpc, hmem, hstatus, hout, hparams⟩, hE⟩ v =>
    ⟨⟨hregs, hpc, hmem, hstatus, by simp only [State.out_emit, hout], hparams⟩, hE⟩
  halt := fun ⟨⟨hregs, hpc, hmem, _, hrest⟩, hE⟩ => ⟨⟨hregs, hpc, hmem, rfl, hrest⟩, hE⟩
  raise := fun ⟨⟨hregs, hpc, hmem, _, hrest⟩, hE⟩ r =>
    ⟨⟨hregs, hpc, hmem, by simp only [State.status_raise, hpc], hrest⟩, hE⟩

/-! ## What an instruction writes -/

/-- The registers an instruction may write (R19): the destination, SP in the stack instructions. -/
def MayWriteReg : Instr → RegNo → Prop
  | .ldi a _ | .add a _ | .mul a _ => fun i => i.val = a.toNat
  | .push _ | .call _ | .ret => (· = 7)
  | .pop a => fun i => i.val = a.toNat ∨ i = 7
  | .hlt | .prn _ | .cmp _ _ | .jmp _ | .jeq _ | .jne _ => nothing

/-- The flags an instruction may write (R23, R24): L, G and E, by CMP. -/
def MayWriteFlag : Instr → FlagNo → Prop
  | .cmp _ _ => fun i => 5 ≤ i.val
  | _ => nothing

/-- The addresses an instruction may write (R41): the SP after the pre-decrement, by PUSH and CALL. -/
def MayWriteAddr (s : State) : Instr → Nat → Prop
  | .push _ | .call _ => fun addr => ∃ s₁, decSp s = .ok s₁ ∧ addr = s₁.sp.toNat
  | _ => nothing

/-- `t` comes from `s` by updates that write at most these registers, flags and addresses. -/
inductive Writes (regs : RegNo → Prop) (flags : FlagNo → Prop) (addrs : Nat → Prop) (s : State) : State → Prop where
  | refl : Writes regs flags addrs s s
  | setReg {t : State} {i : RegNo} {v : Byte} : Writes regs flags addrs s t → regs i → Writes regs flags addrs s (t.setReg i v)
  | raiseFlag {t : State} {i : FlagNo} : Writes regs flags addrs s t → flags i → Writes regs flags addrs s (t.raiseFlag i)
  | store {t : State} {a : Nat} {v : Byte} :
    Writes regs flags addrs s t → addrs a → a < 128 → Writes regs flags addrs s (t.store a v)
  | setPc {t : State} {p : Byte} : Writes regs flags addrs s t → Writes regs flags addrs s (t.setPc p)
  | emit {t : State} {v : Byte} : Writes regs flags addrs s t → Writes regs flags addrs s (t.emit v)
  | halt {t : State} : Writes regs flags addrs s t → Writes regs flags addrs s t.halt
  | raise {t : State} {r : FaultReason} : Writes regs flags addrs s t → Writes regs flags addrs s (t.raise r)

namespace Writes

variable {regs : RegNo → Prop} {flags : FlagNo → Prop} {addrs : Nat → Prop}

theorem advance {k : Nat} (h : Writes regs flags addrs s t) : Writes regs flags addrs s (t.advance k) := h.setPc

theorem decSp (h : Writes regs flags addrs s t) (hsp : regs 7) (hd : decSp t = .ok s') : Writes regs flags addrs s s' := by
  obtain ⟨-, rfl⟩ := decSp_eq_ok.mp hd
  exact h.setReg hsp

theorem incSp (h : Writes regs flags addrs s t) (hsp : regs 7) (hi : incSp t = .ok s') : Writes regs flags addrs s s' := by
  obtain ⟨-, rfl⟩ := incSp_eq_ok.mp hi
  exact h.setReg hsp

/-- What lies outside the written places is kept. -/
theorem keptExcept (h : Writes regs flags addrs s t) : s.KeptExcept t regs flags addrs := by
  induction h with
  | refl => exact ⟨fun _ _ => rfl, fun _ _ => rfl, fun _ _ => rfl, rfl⟩
  | @setReg t i v _ hi ih =>
    obtain ⟨hreg, hrest⟩ := ih
    refine ⟨fun j hj => ?_, hrest⟩
    rw [State.reg_setReg_of_ne t (fun e : i = j => hj (e ▸ hi)), hreg j hj]
  | @raiseFlag t i _ hi ih =>
    obtain ⟨hreg, hflag, hrest⟩ := ih
    refine ⟨hreg, fun j hj => ?_, hrest⟩
    rw [State.flag_raiseFlag_of_ne t (fun e : i = j => hj (e ▸ hi)), hflag j hj]
  | @store t a v _ ha _ ih =>
    obtain ⟨hreg, hflag, hmem, hparams⟩ := ih
    refine ⟨hreg, hflag, fun b hb => ?_, hparams⟩
    rw [State.mem_store, Memory.read_write_of_ne t.mem (fun e : a = b => hb (e ▸ ha)), hmem b hb]
  | _ => assumption

/-- No update clears a flag (R24). -/
theorem flag_sticky (h : Writes regs flags addrs s t) {f : FlagNo} (hf : s.flag f = true) : t.flag f = true := by
  induction h with
  | refl => exact hf
  | @raiseFlag t i _ _ ih => rw [State.flag_raiseFlag, ih, ite_self]
  | _ => assumption

/-- Every update keeps the canonical form of memory: a store is inside the 128 cells. -/
theorem mem_wf (h : Writes regs flags addrs s t) (hm : s.mem.wf = true) : t.mem.wf = true := by
  induction h with
  | refl => exact hm
  | store _ _ hlt ih => exact Memory.wf_write ih hlt _
  | _ => assumption

end Writes

theorem five_le_compareFlag (x y : Byte) : 5 ≤ (compareFlag x y).val := by
  obtain ⟨-, h⟩ | ⟨-, h⟩ | ⟨-, h⟩ := compareFlag_cases x y <;> simp [h]

/-- Every instruction that answers, by its result or by a fault, wrote only what it may write. -/
theorem exec_writes {i : Instr} (h : exec i s = .next t) :
    Writes (MayWriteReg i) (MayWriteFlag i) (MayWriteAddr s i) s t := by
  have start : Writes (MayWriteReg i) (MayWriteFlag i) (MayWriteAddr s i) s s := .refl
  cases i with
  | hlt => cases h; exact start.halt
  | ldi a imm =>
    obtain ⟨r, -, rfl⟩ | ⟨A, hA, rfl⟩ := execLdi_cases h
    · exact start.raise
    · exact (start.setReg hA.symm).advance
  | add a b =>
    obtain ⟨r, -, rfl⟩ | ⟨A, B, hA, -, v, -, rfl⟩ := execAdd_cases h
    · exact start.raise
    · exact (start.setReg hA.symm).advance
  | mul a b =>
    obtain ⟨r, -, rfl⟩ | ⟨A, B, hA, -, v, -, rfl⟩ := execMul_cases h
    · exact start.raise
    · exact (start.setReg hA.symm).advance
  | prn a =>
    obtain ⟨r, -, rfl⟩ | ⟨A, -, rfl⟩ := execPrn_cases h
    · exact start.raise
    · exact start.emit.advance
  | push a =>
    obtain ⟨r, -, rfl⟩ | ⟨A, -, s₁, h₁, hlt, rfl⟩ := execPush_cases h
    · exact start.raise
    · exact ((start.decSp rfl h₁).store ⟨s₁, h₁, rfl⟩ hlt).advance
  | pop a =>
    obtain ⟨r, -, rfl⟩ | ⟨A, hA, -, s₁, h₁, rfl⟩ := execPop_cases h
    · exact start.raise
    · exact ((start.setReg (.inl hA.symm)).incSp (.inr rfl) h₁).advance
  | call a =>
    obtain ⟨r, -, rfl⟩ | ⟨A, -, s₁, h₁, hlt, rfl⟩ := execCall_cases h
    · exact start.raise
    · exact ((start.decSp rfl h₁).store ⟨s₁, h₁, rfl⟩ hlt).setPc
  | ret =>
    obtain ⟨r, -, rfl⟩ | ⟨-, s₁, h₁, rfl⟩ := execRet_cases h
    · exact start.raise
    · exact (start.incSp rfl h₁).setPc
  | cmp a b =>
    obtain ⟨r, -, rfl⟩ | ⟨A, B, -, -, rfl⟩ := execCmp_cases h
    · exact start.raise
    · exact (start.raiseFlag (five_le_compareFlag _ _)).advance
  | jmp a =>
    obtain ⟨r, -, rfl⟩ | ⟨A, -, rfl⟩ := execJmp_cases h
    · exact start.raise
    · exact start.setPc
  | jeq a =>
    obtain ⟨r, -, rfl⟩ | ⟨-, rfl⟩ | ⟨-, A, -, rfl⟩ := execJeq_cases h
    · exact start.raise
    · exact start.advance
    · exact start.setPc
  | jne a =>
    obtain ⟨r, -, rfl⟩ | ⟨-, rfl⟩ | ⟨-, A, -, rfl⟩ := execJne_cases h
    · exact start.raise
    · exact start.advance
    · exact start.setPc

/-! ## What follows for the status, the flags and the invariant -/

/-- Only HLT writes a status other than FAULTED (R26). -/
theorem sameStatusOrFaulted_of_exec {i : Instr} (hi : i ≠ .hlt) (h : exec i s = .next t) : s.SameStatusOrFaulted t := by
  obtain ⟨r, -, rfl⟩ | ⟨rfl, -⟩ | ⟨-, hstatus⟩ := exec_status_cases h
  · exact .inr ⟨r, rfl⟩
  · exact absurd rfl hi
  · exact .inl hstatus

/-- The frame of an instruction other than HLT and PRN, in the form the statements have. -/
theorem exec_frame {i : Instr} (hhlt : i ≠ .hlt) (hprn : ∀ a, i ≠ .prn a) (h : exec i s = .next t) :
    s.KeptExcept t (MayWriteReg i) (MayWriteFlag i) (MayWriteAddr s i) ∧ t.out = s.out ∧ s.SameStatusOrFaulted t :=
  ⟨(exec_writes h).keptExcept, out_of_exec_of_ne_prn hprn h, sameStatusOrFaulted_of_exec hhlt h⟩

theorem five_le_of_mayWriteFlag {i : Instr} {f : FlagNo} (h : MayWriteFlag i f) : 5 ≤ f.val := by
  cases i with
  | cmp a b => exact h
  | _ => exact h.elim

theorem flag_of_exec_of_ne_cmp {i : Instr} (hi : ∀ a b, i ≠ .cmp a b) (h : exec i s = .next t) (f : FlagNo) :
    t.flag f = s.flag f := by
  obtain ⟨-, hflag, -⟩ := (exec_writes h).keptExcept
  refine hflag f fun hw => ?_
  cases i with
  | cmp a b => exact hi a b rfl
  | _ => exact hw.elim

/-- A CMP that answers raised the one flag of its comparison, or faulted and kept them all. -/
theorem execCmp_flag {a b : Byte} (h : execCmp a b s = .next t) :
    ∃ k, ∀ f, t.flag f = s.flag f ∨ f = k ∧ t.flag f = true := by
  obtain ⟨r, -, rfl⟩ | ⟨A, B, -, -, rfl⟩ := execCmp_cases h
  · exact ⟨0, fun _ => .inl rfl⟩
  · refine ⟨compareFlag (s.reg A) (s.reg B), fun f => ?_⟩
    rw [State.flag_advance, State.flag_raiseFlag]
    split
    · exact .inr ⟨Eq.symm ‹_›, rfl⟩
    · exact .inl rfl

theorem flag_sticky_of_step (h : step s = .next t) {f : FlagNo} (hf : s.flag f = true) : t.flag f = true := by
  obtain ⟨-, -, ⟨r, -, rfl⟩ | ⟨i, -, hexec⟩⟩ := step_cases h
  · exact hf
  · exact (exec_writes hexec).flag_sticky hf

theorem inv_raise (h : s.Inv) (r : FaultReason) : (s.raise r).Inv := by
  obtain ⟨hmem, hflag, -⟩ := h
  refine ⟨hmem, hflag, fun r' q hq => ?_⟩
  cases hq
  rfl

/-- Executed in a RUNNING block, every instruction keeps the invariant: stores are inside memory, flags below FL[5] are not written, and
the only FAULTED state an instruction answers is the raised form of the one before. -/
theorem inv_of_exec {i : Instr} (hInv : s.Inv) (hrun : s.status = .running) (h : exec i s = .next t) : t.Inv := by
  obtain ⟨hmem, hflag, -⟩ := hInv
  obtain ⟨-, hkept, -⟩ := (exec_writes h).keptExcept
  have hflag' (f : FlagNo) (hf : f.val < 5) : t.flag f = false := by
    rw [hkept f fun hw => Nat.not_le.mpr hf (five_le_of_mayWriteFlag hw), hflag f hf]
  refine ⟨(exec_writes h).mem_wf hmem, hflag', fun r q hq => ?_⟩
  obtain ⟨r', -, rfl⟩ | ⟨-, rfl⟩ | ⟨-, hstatus⟩ := exec_status_cases h
  · cases hq; rfl
  · cases hq
  · rw [hstatus, hrun] at hq; cases hq

theorem inv_resetWith (p : Params) : (State.resetWith p).Inv := by
  refine ⟨rfl, fun i _ => by simp [State.resetWith, State.flag], fun r q hq => ?_⟩
  cases hq

end Sys2Proof.Machine

open Sys2Proof Sys2Proof.Machine

/-- Settles O36: to agree in all but the flags other than FL[7] is a congruence, so it is a simulation of the step. -/
theorem onlyTheEqualFlagIsObserved : Obligations.OnlyTheEqualFlagIsObserved :=
  fun _ _ _ hsame hE hstep => isCongruence_sameButHiddenFlags.step ⟨hsame, hE⟩ hstep

/-- Settles O42: a fault of fetch or decode changes the status alone, and every instruction keeps the invariant. -/
theorem stepKeepsTheInvariant : Obligations.StepKeepsTheInvariant := by
  intro s t hInv hstep
  obtain ⟨-, hrun, ⟨r, -, rfl⟩ | ⟨i, -, hexec⟩⟩ := step_cases hstep
  · exact ⟨inv_raise hInv r, rfl⟩
  · obtain ⟨-, -, -, hparams⟩ := (exec_writes hexec).keptExcept
    exact ⟨inv_of_exec hInv hrun hexec, hparams⟩

/-- Settles O30, from the frame of each instruction. -/
theorem frameOfRegisterResults : Obligations.FrameOfRegisterResults := by
  rintro s t a b (h | h | h)
  · exact exec_frame (by simp) (by simp) h
  · exact exec_frame (by simp) (by simp) h
  · exact exec_frame (by simp) (by simp) h

/-- Settles O31, from the frame of each instruction; PRN's has no clause for the output and HLT's none for the status. -/
theorem frameOfTheRest : Obligations.FrameOfTheRest := by
  intro s t a b
  refine ⟨fun h => ?_, fun h => ?_, fun h => ?_, ?_⟩
  · exact ⟨(exec_writes h).keptExcept, out_of_exec_of_ne_prn (by simp) h⟩
  · exact ⟨(exec_writes h).keptExcept, sameStatusOrFaulted_of_exec (by simp) h⟩
  · exact exec_frame (by simp) (by simp) h
  · rintro (h | h | h)
    · exact exec_frame (by simp) (by simp) h
    · exact exec_frame (by simp) (by simp) h
    · exact exec_frame (by simp) (by simp) h

/-- Settles O32, from the frame of each instruction. -/
theorem frameOfPushAndCall : Obligations.FrameOfPushAndCall := by
  rintro s t a (h | h)
  · exact exec_frame (by simp) (by simp) h
  · exact exec_frame (by simp) (by simp) h

/-- Settles O33, from the frame of each instruction. -/
theorem frameOfPopAndRet : Obligations.FrameOfPopAndRet :=
  fun _ _ _ => ⟨exec_frame (by simp) (by simp), exec_frame (by simp) (by simp)⟩

/-- Settles O35, by whether the instruction is a CMP; over a step, because no update clears a flag. -/
theorem flagsAreSticky : Obligations.FlagsAreSticky := by
  refine ⟨fun i s t h => ⟨fun hi => flag_of_exec_of_ne_cmp hi h, ?_⟩, fun s t h f => flag_sticky_of_step h⟩
  by_cases hcmp : ∃ a b, i = .cmp a b
  · obtain ⟨a, b, rfl⟩ := hcmp
    exact execCmp_flag h
  · exact ⟨0, fun f => .inl (flag_of_exec_of_ne_cmp (fun a b e => hcmp ⟨a, b, e⟩) h f)⟩

/-- Settles O39, by whether the instruction is HLT. -/
theorem statusWriters : Obligations.StatusWriters := by
  intro i s t hrun h
  by_cases hhlt : i = .hlt
  · subst hhlt
    cases h
    exact ⟨by simp, .inr (.inl rfl)⟩
  · obtain hstatus | ⟨r, rfl⟩ := sameStatusOrFaulted_of_exec hhlt h
    · rw [hstatus, hrun]
      exact ⟨by simp [hhlt], .inl rfl⟩
    · exact ⟨by simp [hhlt], .inr (.inr ⟨r, rfl⟩)⟩

/-- Settles O40, by the run status. -/
theorem statusPortCodes : Obligations.StatusPortCodes := by
  intro s
  refine ⟨fun h => ?_, fun h => ?_, fun r q h => ?_, fun _ => rfl, fun _ _ => rfl, fun _ => rfl, fun _ => rfl⟩
  all_goals simp only [State.statusPort, h, RunStatus.code]

/-- Settles O41. -/
theorem resetMeetsTheInvariant : Obligations.ResetMeetsTheInvariant :=
  ⟨inv_resetWith, inv_resetWith Params.default⟩

end

section
/-! SUPPORT. The proof of the statement that rests on 20_memory.md: a store is seen by the next fetch. -/

namespace Sys2Proof.Machine

variable {s : State}

@[simp] theorem State.pcPlus_setReg (i : RegNo) (v : Byte) (k : Nat) : (s.setReg i v).pcPlus k = s.pcPlus k := rfl
@[simp] theorem State.pcPlus_store (a : Nat) (v : Byte) (k : Nat) : (s.store a v).pcPlus k = s.pcPlus k := rfl

/-- Below 256 the 8-bit address arithmetic of the pc loses nothing (R21). -/
theorem State.toNat_pcPlus {k : Nat} (h : s.pc.toNat + k < 256) : (s.pcPlus k).toNat = s.pc.toNat + k := by
  rw [State.pcPlus, BitVec.toNat_add, BitVec.toNat_ofNat, Nat.add_mod_mod, Nat.mod_eq_of_lt h]

theorem decSp_of_pos (h : 1 ≤ (s.reg 7).toNat) : decSp s = .ok (s.setReg 7 (s.reg 7 - 1)) :=
  decSp_eq_ok.mpr ⟨.inr h, rfl⟩

theorem memWrite_of_lt {a : Nat} (h : a < 128) (v : Byte) : memWrite s a v = .ok (s.store a v) :=
  memWrite_eq_ok.mpr ⟨h, rfl⟩

/-- The completion of PUSH (R80): SP was 1 to 128, and the register is read after the SP update. -/
theorem execPush_of_room {a : Byte} {A : RegNo} (ha : a.toNat = A.val) (hpos : 1 ≤ (s.reg 7).toNat)
    (hle : (s.reg 7).toNat ≤ 128) :
    execPush a s = .next (((s.setReg 7 (s.reg 7 - 1)).store ((s.reg 7).toNat - 1)
      ((s.setReg 7 (s.reg 7 - 1)).reg A)).advance 2) := by
  have haddr : (s.reg 7 - 1).toNat = (s.reg 7).toNat - 1 := BitVec.toNat_sub_of_le hpos
  have hlt : (s.reg 7).toNat - 1 < 128 := by omega
  simp only [execPush, regIndex_of_eq ha, bind_ok, decSp_of_pos hpos, State.sp_eq, State.reg_setReg_self, haddr,
    memWrite_of_lt hlt, pure_eq_ok, commit_ok]

end Sys2Proof.Machine

open Sys2Proof Sys2Proof.Machine

/-- Settles O50: the address of the store, SP - 1, is the pc that PUSH leaves, and a read after a write answers the value written. -/
theorem storedByteIsFetched : Obligations.StoredByteIsFetched := by
  intro s a A ha hA hsp hle
  have hpush := execPush_of_room ha (by omega) hle
  have hpc : (s.pcPlus 2).toNat = (s.reg 7).toNat - 1 := by
    rw [State.toNat_pcPlus (by omega)]
    omega
  refine ⟨_, _, hpush, fetch_of_lt ?_, ?_⟩
  · simp only [State.pc_advance, State.pcPlus_store, State.pcPlus_setReg, hpc]
    omega
  · simp only [State.pc_advance, State.pcPlus_store, State.pcPlus_setReg, hpc, State.mem_advance, State.mem_store,
      Memory.read_write_self, State.reg_setReg_of_ne s hA.symm]

end

section
/-! SUPPORT. The proofs of the statements that rest on 30_encoding.md: the opcode match, decoder and encoder as each other's inverse,
and what well-formed register operands rule out. -/

namespace Sys2Proof

variable {p : Params} {o : Opcode}

/-! ## The opcode match -/

/-- The legal parameters make the first match the only one (R7, R55). -/
theorem decodeOpcode_eq_some {op : Byte} (hp : p.valid = true) : decodeOpcode p op = some o ↔ o.byte p = op := by
  refine ⟨decodeOpcode_sound, fun h => ?_⟩
  obtain ⟨hinj, -⟩ := p.valid_iff.mp hp
  cases hd : decodeOpcode p op with
  | none => exact absurd h (decodeOpcode_eq_none.mp hd o)
  | some o' => rw [hinj o' o ((decodeOpcode_sound hd).trans h.symm)]

/-- The opcode values of a parameter set, as numbers. -/
def Params.opcodeValues (p : Params) : List Nat := Opcode.all.map fun o => (o.byte p).toNat

theorem Params.mem_opcodeValues {n : Nat} : n ∈ p.opcodeValues ↔ ∃ o : Opcode, (o.byte p).toNat = n := by
  simp [Params.opcodeValues, Opcode.mem_all]

theorem Params.nodup_opcodeValues (hp : p.valid = true) : p.opcodeValues.Nodup := by
  obtain ⟨hinj, -⟩ := p.valid_iff.mp hp
  exact Opcode.nodup_all.map fun o o' h => hinj o o' (BitVec.eq_of_toNat_eq h)

theorem decodeOpcode_ofNat_eq_none {n : Nat} (hn : n < 256) :
    decodeOpcode p (BitVec.ofNat 8 n) = none ↔ n ∉ p.opcodeValues := by
  simp [decodeOpcode_eq_none, Params.mem_opcodeValues, ← BitVec.toNat_inj, Nat.mod_eq_of_lt hn]

/-- Testing the numbers below 256 for an opcode value finds every opcode value once. -/
theorem filter_mem_opcodeValues_perm (hp : p.valid = true) :
    ((List.range 256).filter fun n => n ∈ p.opcodeValues).Perm p.opcodeValues := by
  refine (List.perm_ext_iff_of_nodup (List.nodup_range.filter _) (p.nodup_opcodeValues hp)).mpr fun n => ?_
  simp only [List.mem_filter, List.mem_range, decide_eq_true_eq, and_iff_right_iff_imp, Params.mem_opcodeValues]
  rintro ⟨o, rfl⟩
  exact (o.byte p).isLt

/-- Every legal parameter set leaves 256 - 13 bytes without an opcode (R57). -/
theorem length_illegal_bytes (hp : p.valid = true) :
    ((List.range 256).filter fun n => decodeOpcode p (BitVec.ofNat 8 n) = none).length = 243 := by
  have hillegal : ((List.range 256).filter fun n => decodeOpcode p (BitVec.ofNat 8 n) = none) =
      (List.range 256).filter fun n => !decide (n ∈ p.opcodeValues) :=
    List.filter_congr fun n hn => by simp [decodeOpcode_ofNat_eq_none (List.mem_range.mp hn)]
  have hlegal : ((List.range 256).filter fun n => n ∈ p.opcodeValues).length = 13 :=
    (filter_mem_opcodeValues_perm hp).length_eq
  have hsplit := List.length_eq_length_filter_add (l := List.range 256) fun n => decide (n ∈ p.opcodeValues)
  rw [List.length_range, hlegal] at hsplit
  rw [hillegal]
  omega

/-! ## Operands: an opcode consumes the first n bytes after its own -/

theorem Opcode.operandCount_le_two (o : Opcode) : o.operandCount ≤ 2 := by
  cases o <;> decide

/-- An instruction depends only on the operands its opcode consumes (R65). -/
theorem Opcode.build_congr {a b a' b' : Byte} (h : [a, b].take o.operandCount = [a', b'].take o.operandCount) :
    o.build a b = o.build a' b' := by
  cases o <;> simp_all [Opcode.operandCount, Opcode.build]

theorem Instr.exists_build (i : Instr) : ∃ a b : Byte, i.opcode.build a b = i := by
  cases i with
  | hlt | ret => exact ⟨0, 0, rfl⟩
  | prn a | push a | pop a | call a | jmp a | jeq a | jne a => exact ⟨a, 0, rfl⟩
  | ldi a b | add a b | mul a b | cmp a b => exact ⟨a, b, rfl⟩

/-- R50, R51: the opcode byte, then the operands consumed. -/
theorem encode_build (a b : Byte) : encode p (o.build a b) = o.byte p :: [a, b].take o.operandCount := by
  cases o <;> rfl

/-- The two candidate operand bytes after an opcode (R64) start with the operands it consumes, if those exist. -/
theorem take_candidates {n : Nat} {tail : List Byte} (hn : n ≤ 2) (htail : n ≤ tail.length) :
    [tail[0]?.getD 0, tail[1]?.getD 0].take n = tail.take n := by
  match tail, n with
  | _, 0 => rfl
  | a :: _, 1 => rfl
  | a :: b :: _, 2 => rfl

/-! ## The decoder on a list of bytes -/

/-- Everything the decoder accepts of a fetch window: a selected opcode whose consumed operands exist (R63, R65). -/
theorem decode_eq_ok {w : FetchWindow} {i : Instr} :
    decode p w = .ok i ↔ ∃ o, decodeOpcode p w.op = some o ∧ (1 ≤ o.operandCount → w.a ≠ none) ∧
      (o.operandCount = 2 → w.b ≠ none) ∧ o.build (w.a.getD 0) (w.b.getD 0) = i := by
  cases hd : decodeOpcode p w.op with
  | none => simp [decode, hd]
  | some o =>
    simp only [decode, hd, Option.some.injEq, exists_eq_left']
    split_ifs with hA hB
    · simp [hA]
    · simp [hB]
    · exact ⟨fun h => ⟨not_and.mp hA, not_and.mp hB, by simpa using h⟩, fun ⟨_, _, h⟩ => by simpa using h⟩

/-- Everything the decoder accepts of a list of bytes: an opcode byte with at least the operands it consumes after it. -/
theorem decodeBytes_cons_eq_ok {op : Byte} {tail rest : List Byte} {i : Instr} :
    decodeBytes p (op :: tail) = .ok (i, rest) ↔ ∃ o, decodeOpcode p op = some o ∧ o.operandCount ≤ tail.length ∧
      o.build (tail[0]?.getD 0) (tail[1]?.getD 0) = i ∧ tail.drop o.operandCount = rest := by
  have hlen (o : Opcode) : (1 ≤ o.operandCount → tail[0]? ≠ none) ∧ (o.operandCount = 2 → tail[1]? ≠ none) ↔
      o.operandCount ≤ tail.length := by
    have := o.operandCount_le_two
    simp only [ne_eq, List.getElem?_eq_none_iff]
    omega
  have hbytes : decodeBytes p (op :: tail) = .ok (i, rest) ↔
      decode p ⟨op, tail[0]?, tail[1]?⟩ = .ok i ∧ tail.drop i.opcode.operandCount = rest := by
    cases hd : decode p ⟨op, tail[0]?, tail[1]?⟩ with
    | error e => simp [decodeBytes, hd]
    | ok j => simp +contextual [decodeBytes, hd]
  rw [hbytes, decode_eq_ok]
  constructor
  · rintro ⟨⟨o, hop, hA, hB, rfl⟩, hrest⟩
    exact ⟨o, hop, (hlen o).mp ⟨hA, hB⟩, rfl, by rwa [Opcode.opcode_build] at hrest⟩
  · rintro ⟨o, hop, htail, rfl, hrest⟩
    obtain ⟨hA, hB⟩ := (hlen o).mpr htail
    exact ⟨⟨o, hop, hA, hB, rfl⟩, by rwa [Opcode.opcode_build]⟩

/-- The decoder reads back an encoding whose opcode byte selects its opcode. -/
theorem decodeBytes_encode {i : Instr} (h : decodeOpcode p (i.opcode.byte p) = some i.opcode) (rest : List Byte) :
    decodeBytes p (encode p i ++ rest) = .ok (i, rest) := by
  obtain ⟨a, b, hi⟩ := i.exists_build
  generalize i.opcode = o at h hi
  subst hi
  have hlen : ([a, b].take o.operandCount).length = o.operandCount := by
    simp [o.operandCount_le_two]
  have htail : o.operandCount ≤ ([a, b].take o.operandCount ++ rest).length := by
    simp [hlen]
  rw [encode_build, List.cons_append, decodeBytes_cons_eq_ok]
  refine ⟨o, h, htail, Opcode.build_congr ?_, List.drop_left' hlen⟩
  rw [take_candidates o.operandCount_le_two htail, List.take_left' hlen]

/-- The bytes accepted are an encoding: the opcode selected has the byte read, and the operands are the bytes consumed. -/
theorem eq_encode_of_decodeBytes {bytes rest : List Byte} {i : Instr} (h : decodeBytes p bytes = .ok (i, rest)) :
    bytes = encode p i ++ rest := by
  cases bytes with
  | nil => cases h
  | cons op tail =>
    obtain ⟨o, hop, htail, rfl, rfl⟩ := decodeBytes_cons_eq_ok.mp h
    rw [encode_build, decodeOpcode_sound hop, take_candidates o.operandCount_le_two htail, List.cons_append,
      List.take_append_drop]

end Sys2Proof

namespace Sys2Proof.Machine

/-- A well-formed instruction's own faults are not about a register (R52, R108). -/
theorem InstrFault.ne_register {i : Instr} {s : State} {r : FaultReason} (h : InstrFault i s r) (hw : i.wf = true) (k : Nat) :
    r ≠ .outOfBounds .register k := by
  obtain ⟨_, -, -, hnot⟩ | ⟨_, rfl, -⟩ | ⟨_, rfl, -⟩ := h
  · simp [hw] at hnot
  · simp
  · simp

end Sys2Proof.Machine

open Sys2Proof Sys2Proof.Machine

/-- Settles O1: legal parameters make every opcode byte select its own opcode, and the operands consumed are those encoded. -/
theorem decodeOfEncode : Obligations.DecodeOfEncode :=
  fun _ _ rest hp => decodeBytes_encode ((decodeOpcode_eq_some hp).mpr rfl) rest

/-- Settles O2. -/
theorem encodeOfDecode : Obligations.EncodeOfDecode :=
  fun _ _ _ _ => eq_encode_of_decodeBytes

/-- Settles O4. -/
theorem opcodeMatchIsExact : Obligations.OpcodeMatchIsExact :=
  fun _ _ _ => decodeOpcode_eq_some

/-- Settles O16: the status written is that of a fault the instruction can raise, HALTED, or the RUNNING it had. -/
theorem wellFormedNeverNamesAMissingRegister : Obligations.WellFormedNeverNamesAMissingRegister := by
  intro i s t k q hw hrun h
  obtain ⟨r, hr, rfl⟩ | ⟨-, rfl⟩ | ⟨-, hstatus⟩ := exec_status_cases h
  · simp [hr.ne_register hw k]
  · simp
  · simp [hstatus, hrun]

/-- Settles O3, by running the decoder on each word. -/
theorem writtenWordsDecode : Obligations.WrittenWordsDecode := by
  unfold Obligations.WrittenWordsDecode
  decide

/-- Settles O5: the default parameters are legal, and no opcode has the byte 0x00 or 0xFF. -/
theorem illegalOpcodes : Obligations.IllegalOpcodes :=
  ⟨length_illegal_bytes (by decide), by decide, by decide⟩

end

section
/-! SUPPORT. The proofs of the statements that rest on 40_execution_cycle.md: what a step fetches, decodes and runs, when it answers,
and where each instruction leaves the pc. -/

namespace Sys2Proof

variable {p : Params} {o : Opcode} {w : FetchWindow}

/-! ## The operand check (R65) -/

theorem decode_of_missingA (hop : decodeOpcode p w.op = some o) (hn : 1 ≤ o.operandCount) (ha : w.a = none) :
    decode p w = .error .missingA := by
  simp [decode, hop, hn, ha]

theorem decode_of_missingB (hop : decodeOpcode p w.op = some o) (hn : o.operandCount = 2) (ha : w.a ≠ none)
    (hb : w.b = none) : decode p w = .error .missingB := by
  simp [decode, hop, hn, ha, hb]

end Sys2Proof

namespace Sys2Proof.Machine

variable {s t : State} {o : Opcode} {i : Instr} {r : FaultReason}

/-! ## Stages 1 to 3 of a step -/

/-- The fetch window at the pc (R64), whatever the pc is; `fetch` answers it below 128. -/
abbrev State.window (s : State) : FetchWindow :=
  ⟨s.mem.read s.pc.toNat, fetchByte s.mem (s.pc.toNat + 1), fetchByte s.mem (s.pc.toNat + 2)⟩

theorem fetchDecode_of_lt (h : s.pc.toNat < 128) :
    fetchDecode s = (decode s.params s.window).mapError (decodeFault s.pc.toNat) := by
  simp only [fetchDecode, fetch_of_lt h]
  cases decode s.params s.window <;> rfl

theorem fetchDecode_of_ge (h : 128 ≤ s.pc.toNat) : fetchDecode s = .error (.outOfBounds .fetch s.pc.toNat) := by
  simp [fetchDecode, fetch_of_ge h]

theorem step_of_fetchDecode_ok (hs : s.ready) (h : fetchDecode s = .ok i) : step s = exec i s :=
  (step_of_running hs.1 hs.2).2 i h

theorem faultsWith_of_fetchDecode_error (hs : s.ready) (h : fetchDecode s = .error r) : FaultsWith (step s) s r :=
  (step_of_running hs.1 hs.2).1 r h

theorem step_of_decode_ok (hs : s.ready) (hpc : s.pc.toNat < 128) (h : decode s.params s.window = .ok i) :
    step s = exec i s :=
  step_of_fetchDecode_ok hs (by rw [fetchDecode_of_lt hpc, h]; rfl)

theorem faultsWith_of_decode_error {e : DecodeError} (hs : s.ready) (hpc : s.pc.toNat < 128)
    (h : decode s.params s.window = .error e) : FaultsWith (step s) s (decodeFault s.pc.toNat e) :=
  faultsWith_of_fetchDecode_error hs (by rw [fetchDecode_of_lt hpc, h]; rfl)

theorem fetchByte_ne_none {m : Memory} {a : Nat} (h : a < 128) : fetchByte m a ≠ none := by
  simp [fetchByte_of_lt h]

/-- The tolerant reads (R64) give an opcode whose operands lie below 128 the bytes memory holds there. -/
theorem build_fetchByte {m : Memory} {a : Nat} (h : a + o.operandCount < 128) :
    o.build ((fetchByte m (a + 1)).getD 0) ((fetchByte m (a + 2)).getD 0) = o.build (m.read (a + 1)) (m.read (a + 2)) := by
  apply Opcode.build_congr
  have hle := o.operandCount_le_two
  interval_cases o.operandCount
  · rfl
  · rw [fetchByte_of_lt h]; rfl
  · rw [fetchByte_of_lt (by omega), fetchByte_of_lt h]; rfl

/-- A step at an opcode whose consumed operands lie below 128 executes what the opcode makes of them (R63, R65). -/
theorem step_of_opcode (hs : s.ready) (hop : s.mem.read s.pc.toNat = o.byte s.params)
    (hfit : s.pc.toNat + o.operandCount < 128) :
    step s = exec (o.build (s.mem.read (s.pc.toNat + 1)) (s.mem.read (s.pc.toNat + 2))) s := by
  have hexists {k : Nat} (hk : k ≤ o.operandCount) : fetchByte s.mem (s.pc.toNat + k) ≠ none :=
    fetchByte_ne_none (by omega)
  refine step_of_decode_ok hs (by omega) (decode_eq_ok.mpr ⟨o, ?_, hexists, fun hn => hexists hn.ge, build_fetchByte hfit⟩)
  exact (decodeOpcode_eq_some hs.1).mpr hop.symm

/-- The bytes after the opcode in an instruction's encoding are operands its opcode makes it of; where the encoding has ended, any byte
serves (R65). -/
theorem build_of_encode {p : Params} {a b : Byte}
    (ha : 1 < i.length → (encode p i)[1]? = some a) (hb : 2 < i.length → (encode p i)[2]? = some b) :
    i.opcode.build a b = i := by
  obtain ⟨a', b', hi⟩ := i.exists_build
  rw [Instr.length] at ha hb
  generalize i.opcode = o at ha hb hi ⊢
  subst hi
  rw [encode_build] at ha hb
  apply Opcode.build_congr
  have hle := o.operandCount_le_two
  interval_cases o.operandCount
  · rfl
  · simpa [eq_comm] using ha
  · simp_all

/-! ## Whether a step answers -/

theorem step_of_halted (hv : s.params.valid = true) (hs : s.status = .halted) : step s = .fault .halted := by
  simp [step, hv, hs]

theorem step_of_faulted {q : Byte} (hv : s.params.valid = true) (hs : s.status = .faulted r q) :
    step s = .fault (.faulted r q) := by
  simp [step, hv, hs]

theorem commit_answers (s : State) (x : Except FaultReason State) : ∃ t, commit s x = .next t := by
  cases x with
  | ok t => exact ⟨t, rfl⟩
  | error r => exact ⟨s.raise r, rfl⟩

/-- Every meaning is a commit. -/
theorem exec_answers (i : Instr) (s : State) : ∃ t, exec i s = .next t := by
  cases i with
  | hlt => exact ⟨s.halt, execHlt_eq s⟩
  | _ => exact commit_answers s _

theorem step_answers (hs : s.ready) : ∃ t, step s = .next t := by
  cases h : fetchDecode s with
  | error r => exact ⟨_, faultsWith_of_fetchDecode_error hs h⟩
  | ok i => simpa only [step_of_fetchDecode_ok hs h] using exec_answers i s

/-! ## The pc an instruction leaves (R67) -/

/-- The fixed policy, after writes that kept the pc. -/
theorem toNat_pc_advance {k : Nat} (ht : t.pc = s.pc) (h : s.pc.toNat + k < 256) :
    (t.advance k).pc.toNat = s.pc.toNat + k := by
  rw [← ht] at h ⊢
  exact State.toNat_pcPlus h

theorem pc_of_decSp (h : decSp s = .ok t) : t.pc = s.pc := by
  obtain ⟨-, rfl⟩ := decSp_eq_ok.mp h
  rfl

theorem pc_of_incSp (h : incSp s = .ok t) : t.pc = s.pc := by
  obtain ⟨-, rfl⟩ := incSp_eq_ok.mp h
  rfl

theorem not_raised (hok : ∀ r q, t.status ≠ .faulted r q) : ¬ ∃ r, InstrFault i s r ∧ t = s.raise r := by
  rintro ⟨r, -, rfl⟩
  exact hok r s.pc rfl

end Sys2Proof.Machine

open Sys2Proof Sys2Proof.Machine

/-- Settles O7. -/
theorem stepRunsDecodedInstruction : Obligations.StepRunsDecodedInstruction :=
  fun _ _ => step_of_decode_ok

/-- Settles O8: the first byte selects the instruction's opcode, and the bytes after it are its operands. -/
theorem stepRunsStoredEncoding : Obligations.StepRunsStoredEncoding := by
  intro s i hs hfit hmem
  have hop : s.mem.read s.pc.toNat = i.opcode.byte s.params := by
    obtain ⟨a, b, hi⟩ := i.exists_build
    have h0 := hmem 0 (by rw [Instr.length]; omega)
    rw [← hi, encode_build] at h0
    simpa [eq_comm] using h0
  rw [step_of_opcode hs hop (by rw [Instr.length] at hfit; omega), build_of_encode (hmem 1) (hmem 2)]

/-- Settles O9. -/
theorem fetchPastMemoryFaults : Obligations.FetchPastMemoryFaults :=
  fun _ hs hpc => faultsWith_of_fetchDecode_error hs (fetchDecode_of_ge hpc)

/-- Settles O11: a candidate operand is missing exactly when its address is 128 or more. -/
theorem consumedOperandsMustExist : Obligations.ConsumedOperandsMustExist := by
  intro s o hs hpc hop
  have hsel : decodeOpcode s.params (s.mem.read s.pc.toNat) = some o := (decodeOpcode_eq_some hs.1).mpr hop.symm
  refine ⟨fun hn h127 => ?_, fun hn h126 => ?_, step_of_opcode hs hop⟩
  · have hfault := faultsWith_of_decode_error hs hpc (decode_of_missingA hsel hn (fetchByte_of_ge (by omega)))
    rwa [decodeFault, h127] at hfault
  · exact faultsWith_of_decode_error hs hpc
      (decode_of_missingB hsel hn (fetchByte_ne_none (by omega)) (fetchByte_of_ge (by omega)))

/-- Settles O12. -/
theorem noStepAfterTheEnd : Obligations.NoStepAfterTheEnd :=
  fun _ hv => ⟨step_of_halted hv, fun _ _ => step_of_faulted hv, rfl⟩

/-- Settles O13. -/
theorem everyRunningStepAnswers : Obligations.EveryRunningStepAnswers :=
  ⟨exec_answers, fun _ => step_answers⟩

/-- Settles O34, by the instruction: without a fault each has one result, or one per side of the branch. -/
theorem pcPolicies : Obligations.PcPolicies := by
  intro i s t _ hpc h hok
  cases i with
  | hlt => cases h; exact ⟨rfl, rfl⟩
  | ldi a imm =>
    obtain ⟨A, -, rfl⟩ := (execLdi_cases h).resolve_left (not_raised hok)
    exact toNat_pc_advance rfl (by omega)
  | add a b =>
    obtain ⟨A, B, -, -, v, -, rfl⟩ := (execAdd_cases h).resolve_left (not_raised hok)
    exact toNat_pc_advance rfl (by omega)
  | mul a b =>
    obtain ⟨A, B, -, -, v, -, rfl⟩ := (execMul_cases h).resolve_left (not_raised hok)
    exact toNat_pc_advance rfl (by omega)
  | prn a =>
    obtain ⟨A, -, rfl⟩ := (execPrn_cases h).resolve_left (not_raised hok)
    exact toNat_pc_advance rfl (by omega)
  | push a =>
    obtain ⟨A, -, s₁, h₁, -, rfl⟩ := (execPush_cases h).resolve_left (not_raised hok)
    have hpc₁ : s₁.pc = s.pc := pc_of_decSp h₁
    exact toNat_pc_advance hpc₁ (by omega)
  | pop a =>
    obtain ⟨A, -, -, s₁, h₁, rfl⟩ := (execPop_cases h).resolve_left (not_raised hok)
    have hpc₁ : s₁.pc = s.pc := (pc_of_incSp h₁).trans rfl
    exact toNat_pc_advance hpc₁ (by omega)
  | call a =>
    obtain ⟨A, hA, s₁, -, -, rfl⟩ := (execCall_cases h).resolve_left (not_raised hok)
    exact ⟨A, hA, rfl⟩
  | ret =>
    obtain ⟨-, s₁, -, rfl⟩ := (execRet_cases h).resolve_left (not_raised hok)
    rfl
  | cmp a b =>
    obtain ⟨A, B, -, -, rfl⟩ := (execCmp_cases h).resolve_left (not_raised hok)
    exact toNat_pc_advance rfl (by omega)
  | jmp a =>
    obtain ⟨A, hA, rfl⟩ := (execJmp_cases h).resolve_left (not_raised hok)
    exact ⟨A, hA, rfl⟩
  | jeq a =>
    obtain ⟨hE, rfl⟩ | ⟨hE, A, hA, rfl⟩ := (execJeq_cases h).resolve_left (not_raised hok)
    · simpa [hE] using toNat_pc_advance rfl (by omega)
    · simpa [hE] using ⟨A, hA, rfl⟩
  | jne a =>
    obtain ⟨hE, rfl⟩ | ⟨hE, A, hA, rfl⟩ := (execJne_cases h).resolve_left (not_raised hok)
    · simpa [hE] using toNat_pc_advance rfl (by omega)
    · simpa [hE] using ⟨A, hA, rfl⟩

end

section
/-! SUPPORT. The proofs of the statements that rest on 41_data_arith.md: arithmetic results under both policies, the ALU, and LDI, ADD and
MUL. -/

namespace Sys2Proof.Machine

variable {s : State} {a b : Byte} {A B : RegNo} {policy : ArithOverflow} {v : Int}

/-! ## Arithmetic results (R72) and the ALU (R74) -/

theorem arith_of_fits (h : policy = .wrap ∨ 0 ≤ v ∧ v ≤ 255) : arith policy v = .ok (BitVec.ofInt 8 v) :=
  arith_eq_ok.mpr ⟨h, rfl⟩

theorem arith_fault_of_outside (h : v < 0 ∨ 255 < v) : arith .fault v = .error (.arithOverflow v) :=
  arith_eq_error.mpr ⟨rfl, by omega, rfl⟩

/-- Narrowing to a register reduces modulo 256, negative results included. -/
theorem toNat_ofInt_eight (v : Int) : ((BitVec.ofInt 8 v).toNat : Int) = v % 256 := by
  rw [BitVec.toNat_ofInt]
  exact Int.toNat_of_nonneg (Int.emod_nonneg v (by decide))

theorem ofInt_toNat (x : Byte) : BitVec.ofInt 8 x.toNat = x := by
  rw [BitVec.ofInt_natCast, BitVec.ofNat_toNat, BitVec.setWidth_eq]

/-- The ALU's exact sum, narrowed, is byte addition. -/
theorem ofInt_add_toNat (x y : Byte) : BitVec.ofInt 8 ((x.toNat : Int) + y.toNat) = x + y := by
  rw [BitVec.ofInt_add, ofInt_toNat, ofInt_toNat]

/-- The ALU's exact difference, narrowed, is byte subtraction. -/
theorem ofInt_sub_toNat (x y : Byte) : BitVec.ofInt 8 ((x.toNat : Int) - y.toNat) = x - y := by
  calc BitVec.ofInt 8 ((x.toNat : Int) - y.toNat)
      = BitVec.ofInt 8 ((x.toNat : Int) - y.toNat) + y - y := (BitVec.add_sub_cancel _ y).symm
    _ = BitVec.ofInt 8 ((x.toNat : Int) - y.toNat + y.toNat) - y := by rw [BitVec.ofInt_add, ofInt_toNat]
    _ = x - y := by rw [Int.sub_add_cancel, ofInt_toNat]

theorem alu_add_of_fits {x y : Byte} (h : policy = .wrap ∨ x.toNat + y.toNat ≤ 255) :
    alu policy .add x y = .ok (x + y) := by
  rw [← ofInt_add_toNat]
  exact arith_of_fits (h.imp_right fun h => by omega)

theorem alu_sub_of_fits {x y : Byte} (h : policy = .wrap ∨ y.toNat ≤ x.toNat) :
    alu policy .sub x y = .ok (x - y) := by
  rw [← ofInt_sub_toNat]
  exact arith_of_fits (h.imp_right fun h => by omega)

/-- No instruction's own pseudocode asks the ALU for a kind it does not define (R74). -/
theorem InstrFault.ne_aluUnsupported {i : Instr} {r : FaultReason} (h : InstrFault i s r) (kind : AluKind) :
    r ≠ .aluUnsupported kind := by
  obtain ⟨_, rfl, -⟩ | ⟨_, rfl, -⟩ | ⟨_, rfl, -⟩ := h <;> simp

/-! ## What LDI, ADD and MUL have in common -/

/-- An instruction of three bytes at 126 or 127 faults at address 128: there it misses A, or B (R65). -/
theorem operandFault_of_three_bytes {o : Opcode} (ho : o.operandCount = 2) (hs : s.ready)
    (hop : s.mem.read s.pc.toNat = o.byte s.params) (hge : 126 ≤ s.pc.toNat) (hlt : s.pc.toNat < 128) :
    FaultsWith (step s) s (.outOfBounds .operand 128) := by
  obtain ⟨missingA, missingB, -⟩ := consumedOperandsMustExist s o hs hlt hop
  obtain h126 | h127 : s.pc.toNat = 126 ∨ s.pc.toNat = 127 := by omega
  · simpa only [h126] using missingB ho h126
  · exact missingA (by omega) h127

/-- A register result keeps every register but its own, every flag and all of memory (R19). -/
theorem keptExcept_setReg_advance (s : State) (A : RegNo) (w : Byte) (k : Nat) :
    s.KeptExcept ((s.setReg A w).advance k) (· = A) nothing nothing :=
  (Writes.refl.setReg (regs := (· = A)) rfl).advance.keptExcept

/-- The shape of ADD and MUL: register A is set to `arith` of a natural number computed from registers A and B. -/
def execArith (result : Nat → Nat → Nat) (a b : Byte) (s : State) : Host.Outcome State Fault Refusal :=
  commit s do
    let A ← regIndex a
    let B ← regIndex b
    let w ← arith s.params.arithOverflow (result (s.reg A).toNat (s.reg B).toNat)
    pure ((s.setReg A w).advance 3)

theorem exec_add_eq (a b : Byte) (s : State) : exec (.add a b) s = execArith (· + ·) a b s := rfl

theorem exec_mul_eq (a b : Byte) (s : State) : exec (.mul a b) s = execArith (· * ·) a b s := rfl

section ExecArith

variable {result : Nat → Nat → Nat}

theorem execArith_of_bad_a (ha : 8 ≤ a.toNat) :
    FaultsWith (execArith result a b s) s (.outOfBounds .register a.toNat) := by
  rw [execArith, regIndex_of_le ha]
  rfl

theorem execArith_of_bad_b (ha : a.toNat < 8) (hb : 8 ≤ b.toNat) :
    FaultsWith (execArith result a b s) s (.outOfBounds .register b.toNat) := by
  rw [execArith, regIndex_of_eq (A := ⟨a.toNat, ha⟩) rfl, regIndex_of_le hb]
  rfl

variable (ha : a.toNat = A.val) (hb : b.toNat = B.val)
include ha hb

theorem execArith_of_overflow (hp : s.params.arithOverflow = .fault)
    (hv : 255 < result (s.reg A).toNat (s.reg B).toNat) :
    FaultsWith (execArith result a b s) s (.arithOverflow (result (s.reg A).toNat (s.reg B).toNat)) := by
  rw [execArith, regIndex_of_eq ha, regIndex_of_eq hb, bind_ok, bind_ok, hp, arith_fault_of_outside (by omega)]
  rfl

theorem execArith_of_fits (hv : s.params.arithOverflow = .wrap ∨ result (s.reg A).toNat (s.reg B).toNat ≤ 255) :
    execArith result a b s =
      .next ((s.setReg A (BitVec.ofNat 8 (result (s.reg A).toNat (s.reg B).toNat))).advance 3) := by
  rw [execArith, regIndex_of_eq ha, regIndex_of_eq hb, bind_ok, bind_ok,
    arith_of_fits (hv.imp_right fun h => by omega), BitVec.ofInt_natCast]
  rfl

/-- The completion of ADD and MUL: the result modulo 256 in register A, the pc moved on by 3, and all else kept. -/
theorem execArith_completes (hv : s.params.arithOverflow = .wrap ∨ result (s.reg A).toNat (s.reg B).toNat ≤ 255) :
    ∃ t, execArith result a b s = .next t ∧ (t.reg A).toNat = result (s.reg A).toNat (s.reg B).toNat % 256 ∧
      t.pc = s.pc + 3 ∧ t.status = s.status ∧ t.out = s.out ∧ s.KeptExcept t (· = A) nothing nothing := by
  refine ⟨_, execArith_of_fits ha hb hv, ?_, rfl, rfl, rfl, keptExcept_setReg_advance s A _ 3⟩
  rw [State.reg_advance, State.reg_setReg_self, BitVec.toNat_ofNat]

end ExecArith

theorem execLdi_of_bad_index {imm : Byte} (ha : 8 ≤ a.toNat) :
    FaultsWith (execLdi a imm s) s (.outOfBounds .register a.toNat) := by
  rw [execLdi, regIndex_of_le ha]
  rfl

theorem execLdi_of_index {imm : Byte} (ha : a.toNat = A.val) :
    execLdi a imm s = .next ((s.setReg A imm).advance 3) := by
  rw [execLdi, regIndex_of_eq ha]
  rfl

end Sys2Proof.Machine

open Sys2Proof Sys2Proof.Machine

/-- Settles O46, from all that `arith` can answer. -/
theorem arithmeticPolicies : Obligations.ArithmeticPolicies := by
  refine ⟨fun v => ⟨_, arith_of_fits (.inl rfl), toNat_ofInt_eight v⟩, fun v h0 h255 => ?_, fun v => arith_fault_of_outside⟩
  refine ⟨_, arith_of_fits (.inr ⟨h0, h255⟩), ?_⟩
  rw [toNat_ofInt_eight, Int.emod_eq_of_lt h0 (by omega)]

/-- Settles O47: ADD and SUB are `arith` of the exact result, and an instruction's status change is none of the ALU's. -/
theorem aluInterface : Obligations.AluInterface := by
  refine ⟨fun x y => ⟨alu_add_of_fits (.inl rfl), alu_sub_of_fits (.inl rfl)⟩, fun x y => ?_, fun _ _ _ _ => rfl, ?_⟩
  · exact ⟨fun h => alu_add_of_fits (.inr h), fun h => arith_fault_of_outside (by omega),
      fun h => alu_sub_of_fits (.inr h), fun h => arith_fault_of_outside (by omega)⟩
  · intro i s t kind q hrun h
    obtain ⟨r, hr, rfl⟩ | ⟨-, rfl⟩ | ⟨-, hstatus⟩ := exec_status_cases h
    · simp [hr.ne_aluUnsupported kind]
    · simp
    · simp [hstatus, hrun]

/-- Settles O17, by whether the operands exist and the index names a register. -/
theorem ldiLoadsTheImmediate : Obligations.LdiLoadsTheImmediate := by
  intro s a imm
  refine ⟨rfl, operandFault_of_three_bytes (o := .ldi) rfl, execLdi_of_bad_index, fun A hA => ?_⟩
  exact ⟨_, execLdi_of_index hA, State.reg_setReg_self s A imm, rfl, rfl, rfl, keptExcept_setReg_advance s A imm 3⟩

/-- Settles O18: ADD is the common shape with the sum as its result. -/
theorem addSumsRegisters : Obligations.AddSumsRegisters := by
  intro s a b
  rw [exec_add_eq]
  exact ⟨rfl, operandFault_of_three_bytes (o := .add) rfl, execArith_of_bad_a, execArith_of_bad_b,
    fun A B hA hB => ⟨execArith_of_overflow hA hB, execArith_completes hA hB⟩⟩

/-- Settles O19: MUL is the common shape with the product as its result. -/
theorem mulMultipliesRegisters : Obligations.MulMultipliesRegisters := by
  intro s a b
  rw [exec_mul_eq]
  exact ⟨rfl, operandFault_of_three_bytes (o := .mul) rfl, execArith_of_bad_a, execArith_of_bad_b,
    fun A B hA hB => ⟨execArith_of_overflow hA hB, execArith_completes hA hB⟩⟩

end

section
/-! SUPPORT. The proofs of the statements that rest on 42_output_halt.md: HLT ends the run where it stands, and PRN emits a register. -/

namespace Sys2Proof.Machine

variable {s : State} {a : Byte} {A : RegNo}

/-- A ready block at an HLT halts; HLT has no operands, so the last cell holds a whole one. -/
theorem step_of_hlt (hs : s.ready) (hpc : s.pc.toNat < 128) (hop : s.mem.read s.pc.toNat = Opcode.hlt.byte s.params) :
    step s = .next s.halt :=
  (step_of_opcode hs hop hpc).trans (execHlt_eq s)

theorem step_halt_ne_next (hv : s.params.valid = true) (t : State) : step s.halt ≠ .next t := by
  simp [step_of_halted (s := s.halt) hv rfl]

/-- An instruction with an operand, in the last cell, misses operand A (R65). -/
theorem operandFault_in_last_cell {o : Opcode} (ho : 1 ≤ o.operandCount) (hs : s.ready)
    (hop : s.mem.read s.pc.toNat = o.byte s.params) (h127 : s.pc.toNat = 127) :
    FaultsWith (step s) s (.outOfBounds .operand 128) := by
  obtain ⟨missingA, -, -⟩ := consumedOperandsMustExist s o hs (by omega) hop
  exact missingA ho h127

theorem execPrn_of_bad_index (ha : 8 ≤ a.toNat) :
    FaultsWith (execPrn a s) s (.outOfBounds .register a.toNat) := by
  rw [execPrn, regIndex_of_le ha]
  rfl

theorem execPrn_of_index (ha : a.toNat = A.val) : execPrn a s = .next ((s.emit (s.reg A)).advance 2) := by
  rw [execPrn, regIndex_of_eq ha]
  rfl

/-- Emitting keeps every register, every flag and all of memory. -/
theorem keptExcept_emit_advance (s : State) (v : Byte) (k : Nat) :
    s.KeptExcept ((s.emit v).advance k) nothing nothing nothing :=
  Writes.refl.emit.advance.keptExcept

end Sys2Proof.Machine

open Sys2Proof Sys2Proof.Machine

/-- Settles O20: HLT needs no operand, so it runs wherever it can be fetched, and a halted block takes no step. -/
theorem hltHalts : Obligations.HltHalts :=
  fun s => ⟨rfl, execHlt_eq s, fun hs hpc hop => ⟨step_of_hlt hs hpc hop, step_halt_ne_next hs.1⟩⟩

/-- Settles O21, by whether operand A exists and names a register. -/
theorem prnEmitsTheRegister : Obligations.PrnEmitsTheRegister := by
  intro s a
  refine ⟨rfl, operandFault_in_last_cell (o := .prn) (by decide), execPrn_of_bad_index, fun A hA => ?_⟩
  exact ⟨_, execPrn_of_index hA, rfl, rfl, rfl, keptExcept_emit_advance s (s.reg A) 2⟩

end

section
/-! SUPPORT. The proofs of the statements that rest on 43_stack.md: PUSH, POP, and a POP right after a PUSH. -/

namespace Sys2Proof.Machine

variable {s : State} {a sp : Byte} {A : RegNo}

/-! ## PUSH (R80) -/

theorem execPush_of_bad_index (ha : 8 ≤ a.toNat) :
    FaultsWith (execPush a s) s (.outOfBounds .register a.toNat) := by
  rw [execPush, regIndex_of_le ha]
  rfl

theorem execPush_of_underflow (ha : a.toNat = A.val) (hp : s.params.arithOverflow = .fault) (h0 : (s.reg 7).toNat = 0) :
    FaultsWith (execPush a s) s (.arithOverflow (-1)) := by
  rw [execPush, regIndex_of_eq ha, bind_ok, decSp_eq_error.mpr ⟨hp, h0, rfl⟩]
  rfl

/-- PUSH faults at the decremented SP where no cell is; the decrement is discarded with the rest. -/
theorem execPush_of_no_cell (ha : a.toNat = A.val) (hdec : decSp s = .ok (s.setReg 7 sp)) (hge : 128 ≤ sp.toNat) :
    FaultsWith (execPush a s) s (.outOfBounds .memory sp.toNat) := by
  rw [execPush, regIndex_of_eq ha, bind_ok, hdec, bind_ok, State.sp_eq, State.reg_setReg_self,
    memWrite_eq_error.mpr ⟨hge, rfl⟩]
  rfl

/-- Under WRAP the SP below 0 is 255, an address without a cell. -/
theorem execPush_of_wrapped_sp (ha : a.toNat = A.val) (hp : s.params.arithOverflow = .wrap) (h0 : (s.reg 7).toNat = 0) :
    FaultsWith (execPush a s) s (.outOfBounds .memory 255) := by
  have hsp : s.sp = 0 := BitVec.eq_of_toNat_eq h0
  have hdec : decSp s = .ok (s.setReg 7 255) := decSp_eq_ok.mpr ⟨.inl hp, by rw [hsp]; rfl⟩
  exact execPush_of_no_cell ha hdec (by decide)

theorem execPush_of_sp_past_memory (ha : a.toNat = A.val) (hge : 129 ≤ (s.reg 7).toNat) :
    FaultsWith (execPush a s) s (.outOfBounds .memory ((s.reg 7).toNat - 1)) := by
  have hpos : 1 ≤ (s.reg 7).toNat := by omega
  have hpred : (s.reg 7 - 1).toNat = (s.reg 7).toNat - 1 := BitVec.toNat_sub_of_le hpos
  simpa only [hpred] using execPush_of_no_cell ha (decSp_of_pos hpos) (by omega)

/-- A new SP and one store keep every other register, every flag and every other byte. -/
theorem keptExcept_push (s : State) (sp v pc : Byte) {addr : Nat} (h : addr < 128) :
    s.KeptExcept (((s.setReg 7 sp).store addr v).setPc pc) (· = 7) nothing (· = addr) :=
  ((Writes.refl.setReg (regs := (· = 7)) rfl).store (addrs := (· = addr)) rfl h).setPc.keptExcept

/-! ## POP (R81) -/

theorem execPop_of_bad_index (ha : 8 ≤ a.toNat) :
    FaultsWith (execPop a s) s (.outOfBounds .register a.toNat) := by
  rw [execPop, regIndex_of_le ha]
  rfl

theorem execPop_of_no_cell (ha : a.toNat = A.val) (hge : 128 ≤ (s.reg 7).toNat) :
    FaultsWith (execPop a s) s (.outOfBounds .memory (s.reg 7).toNat) := by
  rw [execPop, regIndex_of_eq ha, bind_ok, State.sp_eq, memRead_eq_error.mpr ⟨hge, rfl⟩]
  rfl

/-- The increment acts on the SP after the load: on the loaded value if the operand is SP itself (the spec's decision D9). -/
theorem execPop_of_incSp (ha : a.toNat = A.val) (hlt : (s.reg 7).toNat < 128) :
    execPop a s = commit s ((incSp (s.setReg A (s.mem.read (s.reg 7).toNat))).map (·.advance 2)) := by
  rw [execPop, regIndex_of_eq ha, bind_ok, State.sp_eq, memRead_eq_ok.mpr ⟨hlt, rfl⟩]
  rfl

/-- POP into SP overflows when the loaded value is 255. -/
theorem execPop_of_overflow (ha : a.toNat = A.val) (hlt : (s.reg 7).toNat < 128) (hA : A = 7)
    (hp : s.params.arithOverflow = .fault) (hv : s.mem.read (s.reg 7).toNat = 255) :
    FaultsWith (execPop a s) s (.arithOverflow 256) := by
  have hinc : incSp (s.setReg A (s.mem.read (s.reg 7).toNat)) = .error (.arithOverflow 256) :=
    incSp_eq_error.mpr ⟨hp, by simp [hA, hv], rfl⟩
  rw [execPop_of_incSp ha hlt, hinc]
  rfl

/-- The completion of POP: the load, and then the increment of the SP that the load left. -/
theorem execPop_of_cell (ha : a.toNat = A.val) (hlt : (s.reg 7).toNat < 128)
    (hA : A = 7 → s.params.arithOverflow = .wrap ∨ s.mem.read (s.reg 7).toNat ≠ 255) :
    execPop a s = .next (((s.setReg A (s.mem.read (s.reg 7).toNat)).setReg 7
      ((s.setReg A (s.mem.read (s.reg 7).toNat)).reg 7 + 1)).advance 2) := by
  have hfits : s.params.arithOverflow = .wrap ∨ ((s.setReg A (s.mem.read (s.reg 7).toNat)).reg 7).toNat ≤ 254 := by
    by_cases h7 : A = 7
    · refine (hA h7).imp_right fun hv => ?_
      rw [h7, State.reg_setReg_self]
      bv_omega
    · rw [State.reg_setReg_of_ne s h7]
      omega
  rw [execPop_of_incSp ha hlt, incSp_eq_ok.mpr ⟨hfits, rfl⟩]
  rfl

/-- Two register writes keep every other register, every flag and all of memory. -/
theorem keptExcept_pop (s : State) (A : RegNo) (v sp pc : Byte) :
    s.KeptExcept (((s.setReg A v).setReg 7 sp).setPc pc) (fun i => i = A ∨ i = 7) nothing nothing :=
  ((Writes.refl.setReg (regs := fun i => i = A ∨ i = 7) (.inl rfl)).setReg (.inr rfl)).setPc.keptExcept

end Sys2Proof.Machine

open Sys2Proof Sys2Proof.Machine

/-- Settles O22, by where the decremented SP lies: below 0, past memory, or at a cell. -/
theorem pushStoresBelowSp : Obligations.PushStoresBelowSp := by
  intro s a
  refine ⟨rfl, operandFault_in_last_cell (o := .push) (by decide), execPush_of_bad_index, fun A ha => ?_⟩
  refine ⟨execPush_of_underflow ha, execPush_of_wrapped_sp ha, execPush_of_sp_past_memory ha, fun hpos hle => ?_⟩
  have hpred : (s.reg 7 - 1).toNat = (s.reg 7).toNat - 1 := BitVec.toNat_sub_of_le hpos
  refine ⟨_, execPush_of_room ha hpos hle, ?_, ?_, rfl, rfl, rfl, keptExcept_push s _ _ _ (by omega)⟩
  · simp only [State.reg_advance, State.reg_store, State.reg_setReg_self, hpred]
  · simp only [State.mem_advance, State.mem_store, Memory.read_write_self, State.reg_setReg, eq_comm]

/-- Settles O23, by whether SP lies at a cell; into SP itself POP increments the loaded value. -/
theorem popLoadsFromSp : Obligations.PopLoadsFromSp := by
  intro s a
  refine ⟨rfl, operandFault_in_last_cell (o := .pop) (by decide), execPop_of_bad_index, fun A ha => ?_⟩
  refine ⟨execPop_of_no_cell ha, execPop_of_overflow ha, fun hlt hA => ?_⟩
  refine ⟨_, execPop_of_cell ha hlt hA, ?_, rfl, rfl, rfl, keptExcept_pop s A _ _ _⟩
  by_cases h7 : A = 7
  · simp [h7]
  · have hsucc : (s.reg 7 + 1).toNat = (s.reg 7).toNat + 1 := by bv_omega
    simp only [if_neg h7, State.reg_advance, State.reg_setReg_self, State.reg_setReg_of_ne _ h7,
      State.reg_setReg_of_ne _ (Ne.symm h7), hsucc, true_and]

/-- Settles O48: the POP loads from the SP that the PUSH left, where the PUSH stored. -/
theorem pushThenPop : Obligations.PushThenPop := by
  intro s a b A B ha hb hB hpos hle
  obtain ⟨-, -, -, push⟩ := pushStoresBelowSp s a
  obtain ⟨-, -, -, completes⟩ := push A ha
  obtain ⟨t, ht, htsp, htmem, -, -, -, htreg, htflag, -, -⟩ := completes hpos hle
  obtain ⟨-, -, -, pop⟩ := popLoadsFromSp t b
  obtain ⟨-, -, completes⟩ := pop B hb
  obtain ⟨u, hu, huB, -, -, -, hureg, huflag, -, -⟩ := completes (by omega) (fun h => absurd h hB)
  rw [if_neg hB, htsp, htmem] at huB
  obtain ⟨huB, husp⟩ := huB
  refine ⟨t, u, ht, hu, huB, BitVec.eq_of_toNat_eq (by omega), fun i hiB hi7 => ?_, fun f => ?_⟩
  · rw [hureg i (by simp [hiB, hi7]), htreg i hi7]
  · rw [huflag f id, htflag f id]

end

section
/-! SUPPORT. The proofs of the statements that rest on 44_control_flow.md: CALL, RET, CMP, the three jumps, and a RET
on the stack that a CALL left. -/

namespace Sys2Proof.Machine

variable {s : State} {a b target : Byte} {A B : RegNo} {r : FaultReason}

/-! ## CALL (R83) -/

/-- A completion that moves the pc is not the FAULTED form, which keeps it (R92). -/
theorem not_faultsWith_advance_two {t : State} (ht : t.pc = s.pc) : ¬ FaultsWith (.next (t.advance 2)) s r := by
  intro h
  have hpc : t.pcPlus 2 = s.pc := congrArg State.pc (Host.Outcome.next.inj h)
  rw [State.pcPlus, ht] at hpc
  bv_omega

/-- CALL takes the faults of PUSH: up to the store the two run the same operations, and from there on neither faults. -/
theorem faultsWith_execCall_of_execPush (h : FaultsWith (execPush a s) s r) : FaultsWith (execCall a s) s r := by
  unfold execPush at h
  unfold execCall
  cases hA : regIndex a with
  | error e => simpa only [hA, bind_error] using h
  | ok A =>
    simp only [hA, bind_ok] at h ⊢
    cases hdec : decSp s with
    | error e => simpa only [hdec, bind_error] using h
    | ok s₁ =>
      simp only [hdec, bind_ok] at h ⊢
      obtain hlt | hge := Nat.lt_or_ge s₁.sp.toNat 128
      · rw [memWrite_of_lt hlt] at h
        have hpc : s₁.pc = s.pc := pc_of_decSp hdec
        exact absurd h (not_faultsWith_advance_two hpc)
      · rw [memWrite_eq_error.mpr ⟨hge, rfl⟩] at h ⊢
        exact h

/-- The completion of CALL: SP was 1 to 128, and the target is read after the SP update. -/
theorem execCall_of_room (ha : a.toNat = A.val) (hpos : 1 ≤ (s.reg 7).toNat) (hle : (s.reg 7).toNat ≤ 128) :
    execCall a s = .next (((s.setReg 7 (s.reg 7 - 1)).store ((s.reg 7).toNat - 1) (s.pcPlus 2)).setPc
      ((s.setReg 7 (s.reg 7 - 1)).reg A)) := by
  have haddr : (s.reg 7 - 1).toNat = (s.reg 7).toNat - 1 := BitVec.toNat_sub_of_le hpos
  rw [execCall, regIndex_of_eq ha, bind_ok, decSp_of_pos hpos, bind_ok, State.sp_eq, State.reg_setReg_self, haddr,
    memWrite_of_lt (by omega)]
  rfl

/-- The return address that CALL stores (R83). -/
theorem State.pcPlus_eq_ofNat (s : State) (k : Nat) : s.pcPlus k = BitVec.ofNat 8 (s.pc.toNat + k) := by
  rw [State.pcPlus, BitVec.ofNat_add, BitVec.ofNat_toNat, BitVec.setWidth_eq]

/-! ## RET (R84) -/

theorem execRet_of_no_cell (hge : 128 ≤ (s.reg 7).toNat) :
    FaultsWith (execRet s) s (.outOfBounds .memory (s.reg 7).toNat) := by
  rw [execRet, State.sp_eq, memRead_eq_error.mpr ⟨hge, rfl⟩]
  rfl

/-- The completion of RET; an SP that names a cell cannot overflow. -/
theorem execRet_of_cell (hlt : (s.reg 7).toNat < 128) :
    execRet s = .next ((s.setReg 7 (s.reg 7 + 1)).setPc (s.mem.read (s.reg 7).toNat)) := by
  have hinc : incSp s = .ok (s.setReg 7 (s.reg 7 + 1)) := incSp_eq_ok.mpr ⟨.inr (by rw [State.sp_eq]; omega), rfl⟩
  rw [execRet, State.sp_eq, memRead_eq_ok.mpr ⟨hlt, rfl⟩, bind_ok, hinc]
  rfl

theorem keptExcept_ret (s : State) (sp pc : Byte) : s.KeptExcept ((s.setReg 7 sp).setPc pc) (· = 7) nothing nothing :=
  (Writes.refl.setReg (regs := (· = 7)) rfl).setPc.keptExcept

/-! ## CMP (R85) -/

theorem execCmp_of_bad_a (ha : 8 ≤ a.toNat) : FaultsWith (execCmp a b s) s (.outOfBounds .register a.toNat) := by
  rw [execCmp, regIndex_of_le ha]
  rfl

theorem execCmp_of_bad_b (ha : a.toNat < 8) (hb : 8 ≤ b.toNat) :
    FaultsWith (execCmp a b s) s (.outOfBounds .register b.toNat) := by
  rw [execCmp, regIndex_of_eq (A := ⟨a.toNat, ha⟩) rfl, regIndex_of_le hb]
  rfl

theorem execCmp_of_indices (ha : a.toNat = A.val) (hb : b.toNat = B.val) :
    execCmp a b s = .next ((s.raiseFlag (compareFlag (s.reg A) (s.reg B))).advance 3) := by
  rw [execCmp, regIndex_of_eq ha, regIndex_of_eq hb]
  rfl

theorem compareFlag_of_lt {x y : Byte} (h : x.toNat < y.toNat) : compareFlag x y = 5 := if_pos h

theorem compareFlag_of_gt {x y : Byte} (h : x.toNat > y.toNat) : compareFlag x y = 6 :=
  (if_neg (Nat.lt_asymm h)).trans (if_pos h)

theorem compareFlag_self (x : Byte) : compareFlag x x = 7 :=
  (if_neg (Nat.lt_irrefl _)).trans (if_neg (Nat.lt_irrefl _))

/-- Raising a flag sets it and keeps every other flag, every register and all of memory. -/
theorem raiseFlag_advance_sets {f g : FlagNo} (h : f = g) (k : Nat) :
    ((s.raiseFlag f).advance k).flag g = true ∧ s.KeptExcept ((s.raiseFlag f).advance k) nothing (· = g) nothing :=
  ⟨h ▸ State.flag_raiseFlag_self s f, (Writes.refl.raiseFlag (flags := (· = g)) h).advance.keptExcept⟩

/-! ## JMP, JEQ and JNE (R86 to R88) -/

theorem execJmp_of_bad_index (ha : 8 ≤ a.toNat) : FaultsWith (execJmp a s) s (.outOfBounds .register a.toNat) := by
  rw [execJmp, regIndex_of_le ha]
  rfl

theorem execJmp_of_index (ha : a.toNat = A.val) : execJmp a s = .next (s.setPc (s.reg A)) := by
  rw [execJmp, regIndex_of_eq ha]
  rfl

/-- A JEQ that is taken is a JMP. -/
theorem execJeq_of_equal (h : s.flag 7 = true) : execJeq a s = execJmp a s :=
  congrArg (commit s) (if_pos h)

theorem execJeq_of_not_equal (h : s.flag 7 = false) : execJeq a s = .next (s.advance 2) :=
  congrArg (commit s) (if_neg (ne_true_of_eq_false h))

/-- A JNE that is taken is a JMP. -/
theorem execJne_of_not_equal (h : s.flag 7 = false) : execJne a s = execJmp a s :=
  congrArg (commit s) (if_neg (ne_true_of_eq_false h))

theorem execJne_of_equal (h : s.flag 7 = true) : execJne a s = .next (s.advance 2) :=
  congrArg (commit s) (if_pos h)

/-- An instruction that sets the pc and does nothing else completes and keeps all but the pc. -/
theorem completes_of_eq_setPc {o : Host.Outcome State Fault Refusal} (h : o = .next (s.setPc target)) :
    ∃ t, o = .next t ∧ t.pc = target ∧ t.status = s.status ∧ t.out = s.out ∧ s.KeptExcept t nothing nothing nothing :=
  ⟨_, h, rfl, rfl, rfl, Writes.refl.setPc.keptExcept⟩

end Sys2Proof.Machine

open Sys2Proof Sys2Proof.Machine

/-- Settles O24: the faults are those of PUSH, and what CALL stores is p + 2 and not the register. -/
theorem callPushesAndJumps : Obligations.CallPushesAndJumps := by
  intro s a
  obtain ⟨-, -, pushBadIndex, push⟩ := pushStoresBelowSp s a
  refine ⟨rfl, operandFault_in_last_cell (o := .call) (by decide),
    fun ha => faultsWith_execCall_of_execPush (pushBadIndex ha), fun A ha => ?_⟩
  obtain ⟨pushUnderflow, pushWrapped, pushPastMemory, -⟩ := push A ha
  refine ⟨fun hp h0 => faultsWith_execCall_of_execPush (pushUnderflow hp h0),
    fun hp h0 => faultsWith_execCall_of_execPush (pushWrapped hp h0),
    fun hge => faultsWith_execCall_of_execPush (pushPastMemory hge), fun hpos hle => ?_⟩
  refine ⟨_, execCall_of_room ha hpos hle, ?_, ?_, ?_, rfl, rfl, keptExcept_push s _ _ _ (by omega)⟩
  · rw [State.reg_setPc, State.reg_store, State.reg_setReg_self]
    exact BitVec.toNat_sub_of_le hpos
  · rw [State.mem_setPc, State.mem_store, Memory.read_write_self, State.pcPlus_eq_ofNat]
  · simp only [State.pc_setPc, State.reg_setReg, eq_comm]

/-- Settles O25: RET needs no operand, so it runs wherever it can be fetched, and it faults exactly where SP names no cell. -/
theorem retPopsThePc : Obligations.RetPopsThePc := by
  intro s
  refine ⟨rfl, fun hs hpc hop => step_of_opcode (o := .ret) hs hop hpc, execRet_of_no_cell, fun hlt => ?_⟩
  refine ⟨_, execRet_of_cell hlt, rfl, ?_, rfl, rfl, keptExcept_ret s _ _⟩
  rw [State.reg_setPc, State.reg_setReg_self]
  bv_omega

/-- Settles O26: each of the three relations selects its flag, and the selected flag is the only one written. -/
theorem cmpSetsOneFlag : Obligations.CmpSetsOneFlag := by
  intro s a b
  refine ⟨rfl, operandFault_of_three_bytes (o := .cmp) rfl, execCmp_of_bad_a, execCmp_of_bad_b, fun A B ha hb => ?_⟩
  refine ⟨_, execCmp_of_indices ha hb, rfl, rfl, rfl, fun hlt => ?_, fun hgt => ?_, fun heq => ?_⟩
  · exact raiseFlag_advance_sets (compareFlag_of_lt hlt) 3
  · exact raiseFlag_advance_sets (compareFlag_of_gt hgt) 3
  · exact raiseFlag_advance_sets (heq ▸ compareFlag_self (s.reg A)) 3

/-- Settles O27, by whether operand A exists and names a register. -/
theorem jmpJumps : Obligations.JmpJumps := fun _ _ =>
  ⟨rfl, operandFault_in_last_cell (o := .jmp) (by decide), execJmp_of_bad_index,
    fun _ ha => completes_of_eq_setPc (execJmp_of_index ha)⟩

/-- Settles O28: taken, JEQ is a JMP; not taken, it never looks at its operand byte. -/
theorem jeqJumpsIfEqual : Obligations.JeqJumpsIfEqual := by
  intro s a
  refine ⟨rfl, operandFault_in_last_cell (o := .jeq) (by decide), fun hE ha => ?_, fun hE A ha => ?_, fun hE => ?_⟩
  · exact (execJeq_of_equal hE).trans (execJmp_of_bad_index ha)
  · exact completes_of_eq_setPc ((execJeq_of_equal hE).trans (execJmp_of_index ha))
  · exact completes_of_eq_setPc (execJeq_of_not_equal hE)

/-- Settles O29: taken, JNE is a JMP; not taken, it never looks at its operand byte. -/
theorem jneJumpsIfNotEqual : Obligations.JneJumpsIfNotEqual := by
  intro s a
  refine ⟨rfl, operandFault_in_last_cell (o := .jne) (by decide), fun hE ha => ?_, fun hE A ha => ?_, fun hE => ?_⟩
  · exact (execJne_of_not_equal hE).trans (execJmp_of_bad_index ha)
  · exact completes_of_eq_setPc ((execJne_of_not_equal hE).trans (execJmp_of_index ha))
  · exact completes_of_eq_setPc (execJne_of_equal hE)

/-- Settles O49: the SP that the CALL left names the cell where it stored p + 2. -/
theorem callThenRet : Obligations.CallThenRet := by
  intro s a A ha hpc hpos hle
  obtain ⟨-, -, -, call⟩ := callPushesAndJumps s a
  obtain ⟨-, -, -, completes⟩ := call A ha
  obtain ⟨t, ht, htsp, htmem, -⟩ := completes hpos hle
  refine ⟨t, ht, fun u husp humem => ?_⟩
  rw [← husp] at htsp humem
  obtain ⟨-, -, -, completes⟩ := retPopsThePc u
  obtain ⟨v, hv, hvpc, hvsp, -⟩ := completes (by omega)
  refine ⟨v, hv, ?_, BitVec.eq_of_toNat_eq ?_⟩
  · rw [hvpc, humem, htsp, htmem, BitVec.toNat_ofNat, Nat.mod_eq_of_lt (by omega)]
  · rw [hvsp, htsp, Nat.sub_add_cancel hpos]

end

section
/-! SUPPORT. The proofs of the statements that rest on 60_exceptions.md: which faults a step can take and in what state they leave the
block, that the output is never read, and what the debug port shows. -/

namespace Sys2Proof

variable {p : Params} {w : FetchWindow} {e : DecodeError}

theorem decode_of_invalidOpcode (hop : decodeOpcode p w.op = none) : decode p w = .error (.invalidOpcode w.op) := by
  simp [decode, hop]

/-- Why the decoder refuses a fetch window: no opcode has its byte, or the first operand missing is A, or it is B (R57, R65). -/
theorem decode_error_cases (h : decode p w = .error e) :
    e = .invalidOpcode w.op ∧ decodeOpcode p w.op = none ∨ e = .missingA ∧ w.a = none ∨
      e = .missingB ∧ w.a ≠ none ∧ w.b = none := by
  unfold decode at h
  split at h
  · cases h
    exact .inl ⟨rfl, ‹_›⟩
  · split_ifs at h with hA hB
    · cases h
      exact .inr (.inl ⟨rfl, hA.2⟩)
    · cases h
      exact .inr (.inr ⟨rfl, fun ha => hA ⟨by omega, ha⟩, hB.2⟩)

end Sys2Proof

namespace Sys2Proof.Machine

variable {s t : State} {r : FaultReason}

/-! ## The faults of a step (R89, R92) -/

theorem fetchByte_eq_none {m : Memory} {a : Nat} : fetchByte m a = none ↔ 128 ≤ a :=
  ⟨fun h => Nat.le_of_not_lt fun hlt => fetchByte_ne_none hlt h, fetchByte_of_ge⟩

/-- The faults of stages 1 to 3, each with its condition. The first missing operand always lies at address 128: where B is the one
missing, A still exists. -/
theorem fetchDecode_error_cases (h : fetchDecode s = .error r) :
    128 ≤ s.pc.toNat ∧ r = .outOfBounds .fetch s.pc.toNat ∨
      s.pc.toNat < 128 ∧ r = .invalidOpcode (s.mem.read s.pc.toNat) ∧
        (∀ o : Opcode, o.byte s.params ≠ s.mem.read s.pc.toNat) ∨
      126 ≤ s.pc.toNat ∧ r = .outOfBounds .operand 128 := by
  obtain hpc | hpc := Nat.lt_or_ge s.pc.toNat 128
  · rw [fetchDecode_of_lt hpc] at h
    cases hd : decode s.params s.window with
    | ok i => rw [hd] at h; cases h
    | error e =>
      rw [hd] at h
      cases h
      obtain ⟨rfl, hop⟩ | ⟨rfl, ha⟩ | ⟨rfl, ha, hb⟩ := decode_error_cases hd
      · exact .inr (.inl ⟨hpc, rfl, decodeOpcode_eq_none.mp hop⟩)
      · have hge : 128 ≤ s.pc.toNat + 1 := fetchByte_eq_none.mp ha
        have h127 : s.pc.toNat = 127 := by omega
        exact .inr (.inr ⟨by omega, by rw [h127]; rfl⟩)
      · have hlt : ¬ 128 ≤ s.pc.toNat + 1 := mt fetchByte_eq_none.mpr ha
        have hge : 128 ≤ s.pc.toNat + 2 := fetchByte_eq_none.mp hb
        have h126 : s.pc.toNat = 126 := by omega
        exact .inr (.inr ⟨by omega, by rw [h126]; rfl⟩)
  · rw [fetchDecode_of_ge hpc] at h
    cases h
    exact .inl ⟨hpc, rfl⟩

/-- A step that ends FAULTED raised the recorded reason, at its own pc, in stages 1 to 3 or in the pseudocode of the instruction. -/
theorem raised_of_step {q : Byte} (h : step s = .next t) (ht : t.status = .faulted r q) :
    q = s.pc ∧ t = s.raise r ∧ (fetchDecode s = .error r ∨ ∃ i, InstrFault i s r) := by
  obtain ⟨-, hrun, ⟨r', hr, rfl⟩ | ⟨i, -, hexec⟩⟩ := step_cases h
  · cases ht
    exact ⟨rfl, rfl, .inl hr⟩
  · obtain ⟨r', hr, rfl⟩ | ⟨-, rfl⟩ | ⟨-, hstatus⟩ := exec_status_cases hexec
    · cases ht
      exact ⟨rfl, rfl, .inr ⟨i, hr⟩⟩
    · cases ht
    · rw [hstatus, hrun] at ht
      cases ht

theorem step_raise_ne_next (hv : s.params.valid = true) (r : FaultReason) (u : State) : step (s.raise r) ≠ .next u := by
  rw [step_of_faulted (s := s.raise r) hv rfl]
  simp

/-! ## The output is never read (R100) -/

/-- The two states differ at most in their outputs, and these grew from `o₁` and `o₂` by the same values. -/
def SameEmissions (o₁ o₂ : List Byte) (s t : State) : Prop :=
  s.SameButOut t ∧ ∃ emitted, s.out = o₁ ++ emitted ∧ t.out = o₂ ++ emitted

/-- Equal in all but the output, two states are equal in all that is read; a value emitted by both extends the same growth. -/
theorem isCongruence_sameEmissions (o₁ o₂ : List Byte) : IsCongruence (SameEmissions o₁ o₂) where
  reg := fun ⟨⟨hregs, _⟩, _⟩ i => by simp only [State.reg, hregs]
  pc := fun ⟨⟨_, hpc, _⟩, _⟩ => hpc
  equalFlag := fun ⟨⟨_, _, hflags, _⟩, _⟩ => by simp only [State.equalFlag, State.flag, hflags]
  mem := fun ⟨⟨_, _, _, hmem, _⟩, _⟩ => hmem
  status := fun ⟨⟨_, _, _, _, hstatus, _⟩, _⟩ => hstatus
  params := fun ⟨⟨_, _, _, _, _, hparams⟩, _⟩ => hparams
  setReg := fun ⟨⟨hregs, hrest⟩, hout⟩ i v => ⟨⟨by simp only [State.setReg, hregs], hrest⟩, hout⟩
  raiseFlag := fun ⟨⟨hregs, hpc, hflags, hrest⟩, hout⟩ i =>
    ⟨⟨hregs, hpc, by simp only [State.raiseFlag, hflags], hrest⟩, hout⟩
  setPc := fun ⟨⟨hregs, _, hrest⟩, hout⟩ _ => ⟨⟨hregs, rfl, hrest⟩, hout⟩
  store := fun ⟨⟨hregs, hpc, hflags, hmem, hrest⟩, hout⟩ a v =>
    ⟨⟨hregs, hpc, hflags, by simp only [State.mem_store, hmem], hrest⟩, hout⟩
  emit := fun ⟨hsame, emitted, hs, ht⟩ v => ⟨hsame, emitted ++ [v], by simp [hs], by simp [ht]⟩
  halt := fun ⟨⟨hregs, hpc, hflags, hmem, _, hparams⟩, hout⟩ => ⟨⟨hregs, hpc, hflags, hmem, rfl, hparams⟩, hout⟩
  raise := fun ⟨⟨hregs, hpc, hflags, hmem, _, hparams⟩, hout⟩ r =>
    ⟨⟨hregs, hpc, hflags, hmem, by simp only [State.status_raise, hpc], hparams⟩, hout⟩

/-- A step appends at most one value to the output: only PRN appends, and it appends one. -/
theorem length_emitted_le_one {emitted : List Byte} (h : step s = .next t) (hout : t.out = s.out ++ emitted) :
    emitted.length ≤ 1 := by
  obtain ⟨-, -, ⟨r, -, rfl⟩ | ⟨i, -, hexec⟩⟩ := step_cases h
  · have hnone : emitted = [] := List.self_eq_append_right.mp hout
    simp [hnone]
  · obtain hkept | ⟨a, A, -, -, happended⟩ := onlyPrnWritesOut i s t hexec
    · have hnone : emitted = [] := List.self_eq_append_right.mp (hkept.symm.trans hout)
      simp [hnone]
    · have hone : emitted = [s.reg A] := List.append_cancel_left (hout.symm.trans happended)
      simp [hone]

end Sys2Proof.Machine

open Sys2Proof Sys2Proof.Machine

/-- Settles O10. -/
theorem invalidOpcodeFaults : Obligations.InvalidOpcodeFaults :=
  fun _ hs hpc hop => faultsWith_of_decode_error hs hpc (decode_of_invalidOpcode (decodeOpcode_eq_none.mpr hop))

/-- Settles O14: the FAULTED state is the raised form of the one before, and a FAULTED block takes no step. -/
theorem faultsArePreciseAndTerminal : Obligations.FaultsArePreciseAndTerminal := by
  intro s t r q h ht
  obtain ⟨hvalid, -⟩ := step_cases h
  obtain ⟨hq, rfl, -⟩ := raised_of_step h ht
  exact ⟨hq, rfl, step_raise_ne_next hvalid r⟩

/-- Settles O15, by the stage that raised the fault and, within it, the check that failed. -/
theorem recordedReasonsAreTheListedOnes : Obligations.RecordedReasonsAreTheListedOnes := by
  intro s t r q h ht
  obtain ⟨-, -, hr | ⟨i, hr⟩⟩ := raised_of_step h ht
  · obtain ⟨hpc, rfl⟩ | ⟨hpc, rfl, hop⟩ | ⟨hpc, rfl⟩ := fetchDecode_error_cases hr
    · exact ⟨rfl, hpc⟩
    · exact ⟨hpc, rfl, hop⟩
    · exact ⟨rfl, hpc⟩
  · obtain ⟨k, rfl, hk, -⟩ | ⟨k, rfl, hk⟩ | ⟨v, rfl, hp, hv⟩ := hr
    · exact ⟨hk, Nat.le_of_lt_succ k.isLt⟩
    · exact ⟨hk, Nat.le_of_lt_succ k.isLt⟩
    · exact ⟨hp, by omega⟩

/-- Settles O37: to differ only in outputs that grew by the same values is a congruence, so it is a simulation of the step. -/
theorem outputIsNeverRead : Obligations.OutputIsNeverRead := by
  intro s₁ s₂ t₁ hsame h
  have hstart : SameEmissions s₁.out s₂.out s₁ s₂ := ⟨hsame, [], by simp, by simp⟩
  obtain ⟨t₂, h₂, hsame', emitted, hout₁, hout₂⟩ := (isCongruence_sameEmissions s₁.out s₂.out).step hstart h
  exact ⟨t₂, emitted, h₂, hsame', hout₁, hout₂, length_emitted_le_one h hout₁⟩

/-- Settles O45: the trace reads its three cells with the tolerant read (R64), which answers NONE from address 128 up. -/
theorem debugTrace : Obligations.DebugTrace :=
  fun _ => ⟨rfl, fun _ => rfl, rfl, rfl, rfl⟩

end

section
/-! SUPPORT. The proofs of the statements that rest on 70_reset_and_hazards.md: the state that reset leaves, and the load of an image. -/

namespace Sys2Proof.Machine

variable {p : Params} {image : List Nat}

/-! ## Reset (R105) -/

/-- The parameters do not reach the registers, so it is enough to check the eight of the default reset. -/
theorem State.reg_resetWith_of_ne {i : RegNo} (hi : i ≠ 7) : (State.resetWith p).reg i = 0 := by
  have hdefault : ∀ j : RegNo, j ≠ 7 → State.reset.reg j = 0 := by decide
  exact hdefault i hi

@[simp] theorem State.flag_resetWith (f : FlagNo) : (State.resetWith p).flag f = false := by
  simp [State.resetWith, State.flag]

@[simp] theorem State.mem_resetWith : (State.resetWith p).mem = [] := rfl

/-! ## What the load answers (R106) -/

theorem boot_of_too_long (hp : p.valid = true) (hlen : 128 < image.length) :
    State.boot p image = .error .imageTooLong := by
  simp [State.boot, hp, hlen]

theorem boot_of_large_value (hp : p.valid = true) (hlen : image.length ≤ 128) (hlarge : ∃ v ∈ image, 255 < v) :
    State.boot p image = .error .valueTooLarge := by
  simpa [State.boot, hp, Nat.not_lt.mpr hlen] using hlarge

theorem boot_of_fits (hp : p.valid = true) (hlen : image.length ≤ 128) (hbyte : ∀ v ∈ image, v ≤ 255) :
    State.boot p image =
      .ok { State.resetWith p with mem := Memory.place [] 0 (image.map (BitVec.ofNat 8)) } := by
  simpa [State.boot, hp, Nat.not_lt.mpr hlen] using hbyte

/-- An image of bytes placed in empty memory is read back value for value, and beyond its end the cells are still 0. -/
theorem Memory.toNat_read_place_ofNat (hbyte : ∀ v ∈ image, v ≤ 255) {k : Nat} (hk : k < 128) :
    ((Memory.place [] 0 (image.map (BitVec.ofNat 8))).read k).toNat = image.getD k 0 := by
  rw [Memory.read_place _ _ _ _ hk, if_pos (Nat.zero_le k), Nat.sub_zero, List.getElem?_map, List.getD_eq_getElem?_getD]
  cases hv : image[k]? with
  | none => rfl
  | some v => exact Nat.mod_eq_of_lt (Nat.lt_succ_of_le (hbyte v (List.mem_of_getElem? hv)))

end Sys2Proof.Machine

open Sys2Proof Sys2Proof.Machine

/-- Settles O44, by whether the image fits: the load places it in the empty memory of reset, which keeps the canonical form. -/
theorem loadPlacesTheImage : Obligations.LoadPlacesTheImage := by
  intro p image hp
  refine ⟨fun hlen hbyte => ?_, boot_of_too_long hp, boot_of_large_value hp⟩
  exact ⟨_, boot_of_fits hp hlen hbyte, fun k hk => Memory.toNat_read_place_ofNat hbyte hk, Memory.wf_place rfl 0 _, rfl⟩

/-- Settles O43, a field at a time. -/
theorem resetState : Obligations.ResetState :=
  fun _ => ⟨fun _ => State.reg_resetWith_of_ne, rfl, rfl, State.flag_resetWith, Memory.read_nil, rfl, rfl, rfl, rfl⟩

end
